-- ==== Sys2Proof/Word.lean ====
section
/-! DEFINITION. The word types of NH-CORE: the 32-bit command and control word, the 16-bit
coefficient and the byte (spec/00_scope.md R5, R6). -/

namespace Sys2Proof

/-- A control register or command word (10_state.md section 4, 30_encoding.md R90). -/
abbrev Word := BitVec 32

/-- A stored coefficient, unsigned in [0, 65535] (00_scope.md R5). -/
abbrev Coeff := BitVec 16

/-- A byte of BMEM (10_state.md R23). -/
abbrev Byte := BitVec 8

/-- An address of one byte inside the window, the bus port's `addr[14:0]` (20_memory.md R61). -/
abbrev Offset := BitVec 15

end Sys2Proof
end

