-- ==== Sys2Proof/Config.lean ====
section
/-! DEFINITION. What is fixed for the machine: the ring and storage parameters of
spec/00_scope.md section 4, and the one parameter the spec leaves OPEN, the window's base address. -/

namespace Sys2Proof

/-- Coefficients per polynomial (00_scope.md R4). -/
abbrev N : Nat := 1024

/-- The modulus (00_scope.md R4). -/
abbrev Q : Nat := 12289

/-- Bytes of BMEM, BMEM_SIZE (10_state.md R23). -/
abbrev bmemSize : Nat := 8192

/-- `NHCORE_BASE`, the host address of offset 0 of the window: chosen by the platform and left
OPEN by the spec (92_eei_decisions.md D7, D44). It has no body, so nothing can rest on a value of
it. DESIGN CHOICE (log 7), safe. -/
opaque Config.nhcoreBase : Nat

end Sys2Proof
end

