-- ==== Sys2Proof/Syntax.lean ====
section
/-! DEFINITION. The commands of NH-CORE as syntax: one constructor of `Instr` per row of the
opcode map (spec/30_encoding.md R96, spec/opcode_table.json). -/

namespace Sys2Proof

/-- The eight polynomial registers, all alike (10_state.md R20, R21). -/
inductive PReg where
  | p0 | p1 | p2 | p3 | p4 | p5 | p6 | p7
  deriving DecidableEq, Repr

/-- The byte offset field BOFF (30_encoding.md R94). -/
abbrev BOff := BitVec 13

/-- The 17 commands of 30_encoding.md R96. Operands stand in the order RD, RS1, RS2, BOFF. -/
inductive Instr where
  | nop
  | pzero (rd : PReg)
  | pcopy (rd rs1 : PReg)
  | bzero
  | preduce (rd rs1 : PReg)
  | pfreeze (rd rs1 : PReg)
  | pflipabs (rd rs1 : PReg)
  | padd (rd rs1 rs2 : PReg)
  | psub (rd rs1 rs2 : PReg)
  | pmul (rd rs1 rs2 : PReg)
  | ntt (rd rs1 : PReg)
  | intt (rd rs1 : PReg)
  | noise (rd : PReg) (boff : BOff)
  | helprec (rd rs1 : PReg) (boff : BOff)
  | reconcile (rs1 rs2 : PReg) (boff : BOff)
  | hpack (rs1 : PReg) (boff : BOff)
  | hunpack (rd : PReg) (boff : BOff)
  deriving DecidableEq, Repr

end Sys2Proof
end

