-- ==== Sys2Proof/WellFormed.lean ====
section
/-! DEFINITION. Well-formed commands: the operand types already exclude every bad register index,
so the one check left is that the byte range fits BMEM (spec/20_memory.md R75,
spec/60_exceptions.md R256 check 3). -/

namespace Sys2Proof

/-- The BOFF operand, 0 for a command without a byte range (30_encoding.md R94, R95). -/
def Instr.boff : Instr → BOff
  | .nop => 0
  | .pzero _ => 0
  | .pcopy _ _ => 0
  | .bzero => 0
  | .preduce _ _ => 0
  | .pfreeze _ _ => 0
  | .pflipabs _ _ => 0
  | .padd _ _ _ => 0
  | .psub _ _ _ => 0
  | .pmul _ _ _ => 0
  | .ntt _ _ => 0
  | .intt _ _ => 0
  | .noise _ o => o
  | .helprec _ _ o => o
  | .reconcile _ _ o => o
  | .hpack _ o => o
  | .hunpack _ o => o

/-- The byte count n of a command with a byte range, 0 for the others (20_memory.md R75). -/
def Instr.byteCount : Instr → Nat
  | .nop => 0
  | .pzero _ => 0
  | .pcopy _ _ => 0
  | .bzero => 0
  | .preduce _ _ => 0
  | .pfreeze _ _ => 0
  | .pflipabs _ _ => 0
  | .padd _ _ _ => 0
  | .psub _ _ _ => 0
  | .pmul _ _ _ => 0
  | .ntt _ _ => 0
  | .intt _ _ => 0
  | .noise _ _ => 4096
  | .helprec _ _ _ => 32
  | .reconcile _ _ _ => 32
  | .hpack _ _ => 256
  | .hunpack _ _ => 256

/-- `BOFF + n <= 8192` (60_exceptions.md R256 check 3). Every command without a byte range passes. -/
def wellFormed (i : Instr) : Bool := decide (i.boff.toNat + i.byteCount ≤ bmemSize)

end Sys2Proof
end

