-- ==== Sys2Proof/Decode.lean ====
section
/-! DEFINITION. The command word (spec/30_encoding.md): its fields, the total decoder, the encoder,
and the CHECK block of spec/60_exceptions.md R256 written from its own match and mask table. -/

namespace Sys2Proof

/-- Field value r names register Pr (30_encoding.md R92). -/
def PReg.index : PReg → Nat
  | .p0 => 0 | .p1 => 1 | .p2 => 2 | .p3 => 3 | .p4 => 4 | .p5 => 5 | .p6 => 6 | .p7 => 7

/-- The register named by an index, taken modulo 8: every value of a 3-bit field names a register
(30_encoding.md R92). -/
def PReg.ofIndex (n : Nat) : PReg :=
  match n % 8 with
  | 0 => .p0 | 1 => .p1 | 2 => .p2 | 3 => .p3 | 4 => .p4 | 5 => .p5 | 6 => .p6 | _ => .p7

/-- The 3-bit field that names a register. -/
def PReg.field (r : PReg) : BitVec 3 := BitVec.ofNat 3 r.index

/-! ## Fields of format C (30_encoding.md R91) -/

def opcField (w : Word) : BitVec 6 := w.extractLsb' 26 6
def rdField (w : Word) : BitVec 3 := w.extractLsb' 23 3
def rs1Field (w : Word) : BitVec 3 := w.extractLsb' 20 3
def rs2Field (w : Word) : BitVec 3 := w.extractLsb' 17 3
def rsvdField (w : Word) : BitVec 4 := w.extractLsb' 13 4
def boffField (w : Word) : BOff := w.extractLsb' 0 13

/-- RD as a register. -/
def rdOf (w : Word) : PReg := PReg.ofIndex (rdField w).toNat
/-- RS1 as a register. -/
def rs1Of (w : Word) : PReg := PReg.ofIndex (rs1Field w).toNat
/-- RS2 as a register. -/
def rs2Of (w : Word) : PReg := PReg.ofIndex (rs2Field w).toNat

/-! ## The decoder -/

/-- Why a word is no command (60_exceptions.md R258, codes 1 to 3). -/
inductive DecodeError where
  /-- OPC is not in the opcode map (R97). -/
  | illegalOpcode
  /-- RSVD or an unused field is nonzero (R93, R95). -/
  | reservedField
  /-- The byte range does not fit BMEM (R75). -/
  | bmemRange
  deriving DecidableEq, Repr

/-- The ERRCODE a decode error is reported as (60_exceptions.md R258). -/
def DecodeError.code : DecodeError → BitVec 4
  | .illegalOpcode => 1
  | .reservedField => 2
  | .bmemRange => 3

/-- Accept `i` as the meaning of `w` if RSVD and the unused fields are 0 and its byte range fits;
the flags say which fields the opcode uses (30_encoding.md R93, R95, R96). -/
def accept (w : Word) (usesRd usesRs1 usesRs2 usesBoff : Bool) (i : Instr) :
    Except DecodeError Instr :=
  if rsvdField w ≠ 0 then .error .reservedField
  else if !usesRd && rdField w ≠ 0 then .error .reservedField
  else if !usesRs1 && rs1Field w ≠ 0 then .error .reservedField
  else if !usesRs2 && rs2Field w ≠ 0 then .error .reservedField
  else if !usesBoff && boffField w ≠ 0 then .error .reservedField
  else if wellFormed i then .ok i
  else .error .bmemRange

/-- The command a 32-bit word stands for, or the one reason it is none (30_encoding.md R96, R98). -/
def decode (w : Word) : Except DecodeError Instr :=
  match (opcField w).toNat with
  | 0x00 => accept w false false false false .nop
  | 0x01 => accept w true false false false (.pzero (rdOf w))
  | 0x02 => accept w true true false false (.pcopy (rdOf w) (rs1Of w))
  | 0x03 => accept w false false false false .bzero
  | 0x04 => accept w true true false false (.preduce (rdOf w) (rs1Of w))
  | 0x05 => accept w true true false false (.pfreeze (rdOf w) (rs1Of w))
  | 0x06 => accept w true true false false (.pflipabs (rdOf w) (rs1Of w))
  | 0x08 => accept w true true true false (.padd (rdOf w) (rs1Of w) (rs2Of w))
  | 0x09 => accept w true true true false (.psub (rdOf w) (rs1Of w) (rs2Of w))
  | 0x0A => accept w true true true false (.pmul (rdOf w) (rs1Of w) (rs2Of w))
  | 0x10 => accept w true true false false (.ntt (rdOf w) (rs1Of w))
  | 0x11 => accept w true true false false (.intt (rdOf w) (rs1Of w))
  | 0x18 => accept w true false false true (.noise (rdOf w) (boffField w))
  | 0x20 => accept w true true false true (.helprec (rdOf w) (rs1Of w) (boffField w))
  | 0x21 => accept w false true true true (.reconcile (rs1Of w) (rs2Of w) (boffField w))
  | 0x22 => accept w false true false true (.hpack (rs1Of w) (boffField w))
  | 0x23 => accept w true false false true (.hunpack (rdOf w) (boffField w))
  | _ => .error .illegalOpcode

/-- The decoder on a word numbered as opcode_table.json numbers its bits: `nbits` bits of `w`,
every higher bit of the 32-bit command 0. A command has no more than 32 bits (30_encoding.md R90). -/
def decodeTableWord (nbits w : Nat) : Option Instr :=
  if nbits ≤ 32 then
    match decode (BitVec.ofNat 32 (w % 2 ^ nbits)) with
    | .ok i => some i
    | .error _ => none
  else none

/-! ## The encoder (30_encoding.md R91, R101) -/

/-- The six fields side by side, bit 31 first: `oooooo ddd sss ttt 0000 bbbbbbbbbbbbb`. -/
def packFields (opc : BitVec 6) (rd rs1 rs2 : BitVec 3) (boff : BOff) : Word :=
  opc ++ rd ++ rs1 ++ rs2 ++ 0#4 ++ boff

/-- The operation code of a command (30_encoding.md R96). -/
def Instr.opc : Instr → BitVec 6
  | .nop => 0x00
  | .pzero _ => 0x01
  | .pcopy _ _ => 0x02
  | .bzero => 0x03
  | .preduce _ _ => 0x04
  | .pfreeze _ _ => 0x05
  | .pflipabs _ _ => 0x06
  | .padd _ _ _ => 0x08
  | .psub _ _ _ => 0x09
  | .pmul _ _ _ => 0x0A
  | .ntt _ _ => 0x10
  | .intt _ _ => 0x11
  | .noise _ _ => 0x18
  | .helprec _ _ _ => 0x20
  | .reconcile _ _ _ => 0x21
  | .hpack _ _ => 0x22
  | .hunpack _ _ => 0x23

/-- The command word of an instruction, unused fields and RSVD 0. -/
def encode : Instr → Word
  | .nop => packFields 0x00 0 0 0 0
  | .pzero d => packFields 0x01 d.field 0 0 0
  | .pcopy d s => packFields 0x02 d.field s.field 0 0
  | .bzero => packFields 0x03 0 0 0 0
  | .preduce d s => packFields 0x04 d.field s.field 0 0
  | .pfreeze d s => packFields 0x05 d.field s.field 0 0
  | .pflipabs d s => packFields 0x06 d.field s.field 0 0
  | .padd d s t => packFields 0x08 d.field s.field t.field 0
  | .psub d s t => packFields 0x09 d.field s.field t.field 0
  | .pmul d s t => packFields 0x0A d.field s.field t.field 0
  | .ntt d s => packFields 0x10 d.field s.field 0 0
  | .intt d s => packFields 0x11 d.field s.field 0 0
  | .noise d o => packFields 0x18 d.field 0 0 o
  | .helprec d s o => packFields 0x20 d.field s.field 0 o
  | .reconcile s t o => packFields 0x21 0 s.field t.field o
  | .hpack s o => packFields 0x22 0 s.field 0 o
  | .hunpack d o => packFields 0x23 d.field 0 0 o

/-! ## The check of an incoming command word (60_exceptions.md R256) -/

/-- One row of the opcode map of 30_encoding.md R96: OPC, match, mask and byte count. -/
structure OpRow where
  opc : Nat
  pattern : Word
  mask : Word
  bytes : Nat
  deriving DecidableEq, Repr

/-- The opcode map, row for row as 30_encoding.md R96 prints it. -/
def opTable : List OpRow :=
  [⟨0x00, 0x00000000, 0xFFFFFFFF, 0⟩,
   ⟨0x01, 0x04000000, 0xFC7FFFFF, 0⟩,
   ⟨0x02, 0x08000000, 0xFC0FFFFF, 0⟩,
   ⟨0x03, 0x0C000000, 0xFFFFFFFF, 0⟩,
   ⟨0x04, 0x10000000, 0xFC0FFFFF, 0⟩,
   ⟨0x05, 0x14000000, 0xFC0FFFFF, 0⟩,
   ⟨0x06, 0x18000000, 0xFC0FFFFF, 0⟩,
   ⟨0x08, 0x20000000, 0xFC01FFFF, 0⟩,
   ⟨0x09, 0x24000000, 0xFC01FFFF, 0⟩,
   ⟨0x0A, 0x28000000, 0xFC01FFFF, 0⟩,
   ⟨0x10, 0x40000000, 0xFC0FFFFF, 0⟩,
   ⟨0x11, 0x44000000, 0xFC0FFFFF, 0⟩] ++
  [⟨0x18, 0x60000000, 0xFC7FE000, 4096⟩,
   ⟨0x20, 0x80000000, 0xFC0FE000, 32⟩,
   ⟨0x21, 0x84000000, 0xFF81E000, 32⟩,
   ⟨0x22, 0x88000000, 0xFF8FE000, 256⟩,
   ⟨0x23, 0x8C000000, 0xFC7FE000, 256⟩]

/-- CHECK(w) of 60_exceptions.md R256: 0 for a valid word, else the code of the first check that
fails. -/
def check (w : Word) : BitVec 4 :=
  match opTable.find? (fun r => r.opc == (opcField w).toNat) with
  | none => 1
  | some r =>
    if rsvdField w ≠ 0 then 2
    else if w &&& r.mask ≠ r.pattern then 2
    else if 0 < r.bytes ∧ bmemSize < (boffField w).toNat + r.bytes then 3
    else 0

end Sys2Proof
end

