-- ==== Sys2Proof/Machine/State.lean ====
section
/-! DEFINITION. The state of NH-CORE as plain data (spec/10_state.md), the inputs the platform and
the host still have to give, the reasons a step can stop, and the state right after reset. -/

namespace Sys2Proof.Machine

/-- The content of one polynomial register: 1024 coefficients of 16 bits, any value
(10_state.md R20). -/
structure Poly where
  coeffs : List Coeff
  size_eq : coeffs.length = N
  deriving DecidableEq, Repr

/-- The polynomial register file P0..P7 (10_state.md R20, R21). -/
structure PolyFile where
  p0 : Poly
  p1 : Poly
  p2 : Poly
  p3 : Poly
  p4 : Poly
  p5 : Poly
  p6 : Poly
  p7 : Poly
  deriving DecidableEq, Repr

/-- BMEM (10_state.md R23): the bytes that are not 0, by their offset in 0..8191, offsets strictly
rising. An unlisted byte reads 0, its reset value (R37). See log 8. -/
abbrev Memory := List Host.Cell

/-- INFLIGHT (10_state.md R35). -/
inductive Inflight where
  /-- Nothing is executing: BUSY = 0. -/
  | empty
  /-- An accepted command word, not yet completed. -/
  | command (w : Word)
  /-- The pseudo-command CLEAR that a reset starts (70_reset_and_hazards.md R296). -/
  | clear
  deriving DecidableEq, Repr

/-- The transfer sizes of the slave bus port: 1, 2 or 4 bytes (20_memory.md R61). -/
inductive Size where
  | b1 | b2 | b4
  deriving DecidableEq, Repr

/-- What the host or the platform does next (20_memory.md R60, R61; log 2). -/
inductive HostAction where
  /-- `Read(off, size)`. -/
  | read (off : Offset) (size : Size)
  /-- `Write(off, size, wdata)`. -/
  | write (off : Offset) (size : Size) (wdata : Word)
  /-- WAIT: read STATUS until BUSY = 0 (30_encoding.md, after R100). -/
  | wait
  /-- The platform drives the reset pin `rst_n` to this level (70_reset_and_hazards.md R290). -/
  | resetPin (level : Bool)
  deriving DecidableEq, Repr

/-- The answer of the slave port to one bus access (20_memory.md R61, R70; log 3). -/
inductive Response where
  /-- A read that was admitted, with its data in the low bits. -/
  | readData (v : Word)
  /-- A write that was admitted. -/
  | writeDone
  /-- A read that got the error response; its data is 0 (R70). -/
  | readError
  /-- A write that got the error response. -/
  | writeError
  deriving DecidableEq, Repr

/-- The two agents of 20_memory.md R60, as whose turn it is (log 1). -/
inductive Agent where
  | host | engine
  deriving DecidableEq, Repr

/-- Everything the spec gives the machine (10_state.md, the table at its head), then the level of
the reset pin, then the model's own fields: the last bus answer and the inputs still to come. -/
structure State where
  /-- P0..P7. -/
  polys : PolyFile
  /-- BMEM. -/
  bmem : Memory
  /-- STATUS.DONE (R31). -/
  done : Bool
  /-- STATUS.ERR (R31). -/
  err : Bool
  /-- STATUS.BERR (R31). -/
  berr : Bool
  /-- STATUS.ERRCODE (R31). -/
  errcode : BitVec 4
  /-- CTRL.IE_DONE (R33). -/
  ieDone : Bool
  /-- CTRL.IE_ERR (R33). -/
  ieErr : Bool
  /-- CTRL.IE_BERR (R33). -/
  ieBerr : Bool
  /-- ERRCMD (R34). -/
  errcmd : Word
  /-- INFLIGHT (R35). -/
  inflight : Inflight
  /-- The level of the pin `rst_n`: true when it is 1, not in hardware reset (R61, R290; log 5). -/
  rstN : Bool
  /-- The model's own: the answer of the last bus access, none before the first (log 3). -/
  response : Option Response
  /-- The model's own: what the host does next, in its order (log 2). -/
  host : List HostAction
  /-- The model's own: whose turn the next steps are (log 1). -/
  turns : List Agent
  deriving DecidableEq, Repr

/-- Why the machine stops with a fault. No state that meets `Safety.Inv` raises either. -/
inductive Fault where
  /-- Raised by the engine's completion when INFLIGHT holds a word that no check accepts. R252 puts
  no such word there. Safe: the model stops where the spec has no such state (log 9). -/
  | inflightInvalid
  /-- Raised by the meanings of NOISE, HELPREC, REC, HPACK and HUNPACK applied to a byte range
  outside BMEM, which R256 check 3 rejects before acceptance. Safe (log 10). -/
  | bmemRange
  deriving DecidableEq, Repr

/-- Why a step has no meaning in the model. -/
inductive Refusal where
  /-- Raised by `exec`'s arm of an instruction without a meaning. Safe. -/
  | notModelled (mnemonic : String)
  /-- Raised by a bus access while `rst_n` is 0: "an access during hardware reset is outside the
  model, a host obligation" (70_reset_and_hazards.md R290). Safe (log 6). -/
  | accessInReset
  deriving DecidableEq, Repr

/-- Every coefficient 0 (R37). -/
def Poly.zero : Poly := ⟨List.replicate N 0, List.length_replicate⟩

/-- The machine right after a reset (10_state.md R37, 70_reset_and_hazards.md R292): P and BMEM 0,
STATUS = 1 (BUSY, INFLIGHT = CLEAR), CTRL = 0, ERRCMD = 0. The pin is back at 1 (R290); the model's
own fields are empty (DESIGN CHOICE, logs 1 to 3). -/
def State.reset : State where
  polys := ⟨Poly.zero, Poly.zero, Poly.zero, Poly.zero, Poly.zero, Poly.zero, Poly.zero, Poly.zero⟩
  bmem := []
  done := false
  err := false
  berr := false
  errcode := 0
  ieDone := false
  ieErr := false
  ieBerr := false
  errcmd := 0
  inflight := .clear
  rstN := true
  response := none
  host := []
  turns := []

end Sys2Proof.Machine
end

