-- ==== Sys2Proof/Machine/Ops.lean ====
section
/-! DEFINITION. The named operations over the polynomial registers, BMEM and the status latch that
every meaning is written in (spec/00_scope.md R8; spec/60_exceptions.md R254, R262, R268;
spec/70_reset_and_hazards.md R292). -/

namespace Sys2Proof.Machine

/-! ## Polynomials -/

/-- `P[p][k]` as a number; 0 outside 0..1023, where no rule reads. -/
def Poly.coeff (v : Poly) (k : Nat) : Nat := (v.coeffs.getD k 0).toNat

/-- The polynomial whose coefficient k is `f k`, stored in 16 bits: exact values are narrowed here
and nowhere else (00_scope.md R5). -/
def Poly.tab (f : Nat → Nat) : Poly :=
  ⟨(List.range N).map fun k => BitVec.ofNat 16 (f k), by rw [List.length_map, List.length_range]⟩

/-- `P[p][k] <- c` (00_scope.md R8). -/
def Poly.set (v : Poly) (k : Nat) (c : Coeff) : Poly :=
  ⟨v.coeffs.set k c, by rw [List.length_set, v.size_eq]⟩

/-- The coefficients as their residues mod Q, in order (42_transform.md R160: "enter as their
residue mod Q"). -/
def Poly.residues (v : Poly) : List Nat := v.coeffs.map fun c => c.toNat % Q

/-- The content of a polynomial register. -/
def PolyFile.get (f : PolyFile) : PReg → Poly
  | .p0 => f.p0 | .p1 => f.p1 | .p2 => f.p2 | .p3 => f.p3
  | .p4 => f.p4 | .p5 => f.p5 | .p6 => f.p6 | .p7 => f.p7

/-- Write a whole polynomial register. None is hardwired (10_state.md R21). -/
def PolyFile.set (f : PolyFile) (r : PReg) (v : Poly) : PolyFile :=
  match r with
  | .p0 => { f with p0 := v }
  | .p1 => { f with p1 := v }
  | .p2 => { f with p2 := v }
  | .p3 => { f with p3 := v }
  | .p4 => { f with p4 := v }
  | .p5 => { f with p5 := v }
  | .p6 => { f with p6 := v }
  | .p7 => { f with p7 := v }

/-- `P[r]`. -/
def State.poly (s : State) (r : PReg) : Poly := s.polys.get r

/-- `P[r] <- v`. -/
def State.setPoly (s : State) (r : PReg) (v : Poly) : State := { s with polys := s.polys.set r v }

/-! ## BMEM -/

/-- The canonical form of BMEM: offsets strictly rising, below 8192, and no byte listed that equals
what an unlisted byte reads as (log 8). -/
abbrev Memory.wf (m : Memory) : Prop :=
  m.Pairwise (fun c d => c.1 < d.1) ∧ ∀ c ∈ m, c.1 < bmemSize ∧ c.2 ≠ 0

/-- `B[a]` (00_scope.md R8): what an unlisted byte reads as is 0, its reset contents (R37). -/
def Memory.read : Memory → Nat → Byte
  | [], _ => 0
  | c :: m, a => if c.1 = a then c.2 else Memory.read m a

/-- The listed cells of a byte string that stands from offset a on: the bytes that are not 0. -/
def cellsFrom : Nat → List Byte → Memory
  | _, [] => []
  | a, b :: bs => if b = 0 then cellsFrom (a + 1) bs else (a, b) :: cellsFrom (a + 1) bs

/-- `BRead(a, n)` (00_scope.md R8). -/
def Memory.readBytes (m : Memory) (a n : Nat) : List Byte := (List.range n).map fun i => m.read (a + i)

/-- `BWrite(a, n, bs)` with n the length of bs (00_scope.md R8): the cells below the range, those of
the string, and the cells above the range. -/
def Memory.writeBytes (m : Memory) (a : Nat) (bs : List Byte) : Memory :=
  m.filter (fun c => c.1 < a) ++ cellsFrom a bs ++ m.filter (fun c => a + bs.length ≤ c.1)

/-- `B[a] <- v`. -/
def Memory.write (m : Memory) (a : Nat) (v : Byte) : Memory := m.writeBytes a [v]

/-- The number bytes form, the first in the least significant place (20_memory.md R64). -/
def bytesToNat : List Byte → Nat
  | [] => 0
  | b :: bs => b.toNat + 256 * bytesToNat bs

/-- The low n bytes of a word, the least significant first (20_memory.md R64). -/
def wordBytes (v : Word) (n : Nat) : List Byte := (List.range n).map fun i => v.extractLsb' (8 * i) 8

/-! ## Completion, rejection, bus error, reset -/

/-- BUSY = 1 exactly when INFLIGHT is not empty (10_state.md R35). -/
def State.busy (s : State) : Bool :=
  match s.inflight with
  | .empty => false
  | .command _ => true
  | .clear => true

/-- The end of every completion: INFLIGHT <- empty, DONE <- 1 (60_exceptions.md R254). -/
def State.complete (s : State) : State := { s with inflight := .empty, done := true }

/-- REJECT(w, code) of 60_exceptions.md R252, R262: with `busError`, all the trap entry NH-CORE has
(R268). -/
def State.reject (s : State) (w : Word) (code : BitVec 4) : State :=
  { s with err := true, errcode := code, errcmd := w }

/-- The state change of a bus error: STATUS.BERR <- 1 and nothing else (20_memory.md R70). -/
def State.busError (s : State) : State := { s with berr := true }

/-- The reset of 70_reset_and_hazards.md R292, of either kind: every architectural field at its
reset value, a command in flight abandoned. The pin, the last answer and the inputs still to come
are not NH-CORE's state and stay (logs 1 to 3, 5). -/
def State.resetCore (s : State) : State :=
  { State.reset with rstN := s.rstN, response := s.response, host := s.host, turns := s.turns }

/-- SUBMIT(w) of 60_exceptions.md R252. -/
def State.submit (s : State) (w : Word) : State :=
  if s.err then s
  else if s.busy then s.reject w 5
  else if check w ≠ 0 then s.reject w (check w)
  else { s with inflight := .command w, done := false }

end Sys2Proof.Machine
end

