-- ==== Sys2Proof/Machine/Operands.lean ====
section
/-! DEFINITION. The operand forms of the commands: whole polynomial registers, lane by lane or as
one sequence, and byte ranges of BMEM (spec/20_memory.md R75, R76; spec/41_poly_arith.md R143).
Every form reads its inputs from the state before the command (spec/00_scope.md R9). -/

namespace Sys2Proof.Machine

/-- What `exec` and every meaning answers. -/
abbrev Result := Host.Outcome State Fault Refusal

/-- Complete with the polynomial `v` written to register `rd`. -/
def putPoly (rd : PReg) (v : Poly) (s : State) : Result := .next (s.setPoly rd v).complete

/-- Complete with `f` of each lane of `rs1` written to `rd`. -/
def lanes1 (f : Nat → Nat) (rd rs1 : PReg) (s : State) : Result :=
  putPoly rd (Poly.tab fun k => f ((s.poly rs1).coeff k)) s

/-- Complete with `f` of each pair of lanes of `rs1` and `rs2` written to `rd` (R143). -/
def lanes2 (f : Nat → Nat → Nat) (rd rs1 rs2 : PReg) (s : State) : Result :=
  putPoly rd (Poly.tab fun k => f ((s.poly rs1).coeff k) ((s.poly rs2).coeff k)) s

/-- The n bytes at BOFF as the input of `go` (R75). A range outside BMEM is no operand of an
accepted command: it faults (log 10). -/
def withBytes (boff : BOff) (n : Nat) (s : State) (go : List Byte → Result) : Result :=
  if boff.toNat + n ≤ bmemSize then go (s.bmem.readBytes boff.toNat n) else .fault .bmemRange

/-- Complete with the bytes `bs` written at BOFF (R75). A range outside BMEM faults (log 10). -/
def putBytes (boff : BOff) (bs : List Byte) (s : State) : Result :=
  if boff.toNat + bs.length ≤ bmemSize then
    .next { s with bmem := s.bmem.writeBytes boff.toNat bs }.complete
  else .fault .bmemRange

end Sys2Proof.Machine
end

