-- ==== Sys2Proof/Machine/Housekeeping.lean ====
section
/-! DEFINITION. NOP, PZERO, PCOPY, BZERO (spec/45_housekeeping.md). -/

namespace Sys2Proof.Machine

/-- R230: nothing changes in P or BMEM. -/
def execNop (s : State) : Result := .next s.complete

/-- R231: `P[d][k] <- 0`. -/
def execPzero (rd : PReg) (s : State) : Result := putPoly rd (Poly.tab fun _ => 0) s

/-- R232: values are copied unchanged, not reduced. -/
def execPcopy (rd rs1 : PReg) (s : State) : Result := putPoly rd (s.poly rs1) s

/-- R233: every byte of BMEM is 0, the canonical form of which lists nothing. -/
def execBzero (s : State) : Result := .next { s with bmem := [] }.complete

end Sys2Proof.Machine
end

