-- ==== Sys2Proof/Machine/Modular.lean ====
section
/-! DEFINITION. PREDUCE, PFREEZE, PFLIPABS (spec/40_modular.md), on exact integers (R126). -/

namespace Sys2Proof.Machine

/-- R120. -/
def barrett (a : Nat) : Nat := a - 5 * a / 65536 * Q

/-- R122. -/
def freeze (a : Nat) : Nat := a % Q

/-- R124: the distance of freeze(a) from 6144 = floor(Q / 2). -/
def flipabs (a : Nat) : Nat := ((freeze a : Int) - 6144).natAbs

/-- R121. -/
def execPreduce (rd rs1 : PReg) (s : State) : Result := lanes1 barrett rd rs1 s

/-- R123. -/
def execPfreeze (rd rs1 : PReg) (s : State) : Result := lanes1 freeze rd rs1 s

/-- R125. -/
def execPflipabs (rd rs1 : PReg) (s : State) : Result := lanes1 flipabs rd rs1 s

end Sys2Proof.Machine
end

