-- ==== Sys2Proof/Machine/Noise.lean ====
section
/-! DEFINITION. NOISE (spec/43_noise.md). -/

namespace Sys2Proof.Machine

/-- HW(b), the number of 1 bits of a byte (00_scope.md R7). -/
def hammingWeight (b : Byte) : Nat := ((List.range 8).map fun i => (b.getLsbD i).toNat).sum

/-- One coefficient from its four bytes (R180). -/
def noiseLane (b0 b1 b2 b3 : Byte) : Nat :=
  (((hammingWeight b0 : Int) + hammingWeight b1 - hammingWeight b2 - hammingWeight b3) % Q).toNat

/-- R180: coefficient k uses exactly the bytes 4k..4k+3. -/
def noiseCoeff (y : List Byte) (k : Nat) : Nat :=
  noiseLane (y.getD (4 * k) 0) (y.getD (4 * k + 1) 0) (y.getD (4 * k + 2) 0) (y.getD (4 * k + 3) 0)

/-- R181. -/
def execNoise (rd : PReg) (boff : BOff) (s : State) : Result :=
  withBytes boff 4096 s fun y => putPoly rd (Poly.tab (noiseCoeff y)) s

end Sys2Proof.Machine
end

