-- ==== Sys2Proof/Machine/PolyArith.lean ====
section
/-! DEFINITION. PADD, PSUB, PMUL (spec/41_poly_arith.md), lane by lane on exact integers (R143). -/

namespace Sys2Proof.Machine

/-- R140. -/
def addLane (a b : Nat) : Nat := (a + b) % Q

/-- R141: the bias 6Q keeps the intermediate from being negative. -/
def subLane (a b : Nat) : Nat := (a + 6 * Q - b) % Q

/-- R142. -/
def mulLane (a b : Nat) : Nat := a * b % Q

/-- R140. -/
def execPadd (rd rs1 rs2 : PReg) (s : State) : Result := lanes2 addLane rd rs1 rs2 s

/-- R141: RS1 is the minuend, RS2 the subtrahend. -/
def execPsub (rd rs1 rs2 : PReg) (s : State) : Result := lanes2 subLane rd rs1 rs2 s

/-- R142. -/
def execPmul (rd rs1 rs2 : PReg) (s : State) : Result := lanes2 mulLane rd rs1 rs2 s

end Sys2Proof.Machine
end

