-- ==== Sys2Proof/Machine/Reconcile.lean ====
section
/-! DEFINITION. HELPREC, REC, HPACK, HUNPACK (spec/44_reconciliation.md). Coefficient j of group i
is the one at index i + 256 j (R199). -/

namespace Sys2Proof.Machine

/-! ## The rounding function f (R200) -/

/-- v0 = ceil(floor(x / Q) / 2). -/
def roundUp (x : Nat) : Nat := (x / Q + 1) / 2

/-- v1 = floor(floor(x / Q) / 2). -/
def roundDown (x : Nat) : Nat := x / Q / 2

/-- |x - 2 Q v0|. -/
def roundDist (x : Nat) : Nat := ((x : Int) - 2 * Q * roundUp x).natAbs

/-! ## The decoding function g (R201) -/

/-- u = ceil(floor(x / 4Q) / 2). -/
def decodeMultiple (x : Nat) : Nat := (x / (4 * Q) + 1) / 2

/-- g(x) = |8 Q u - x|. -/
def decodeDist (x : Nat) : Nat := ((8 * Q * decodeMultiple x : Int) - x).natAbs

/-! ## HELPREC-FN (R202) -/

/-- The dither bit of group i: bit i mod 8 of byte floor(i / 8). -/
def ditherBit (r : List Byte) (i : Nat) : Nat := (r.getD (i / 8) 0).toNat >>> (i % 8) &&& 1

/-- `8 v[i + 256 j] + 4 rbit`. -/
def helpX (v : Poly) (r : List Byte) (i j : Nat) : Nat :=
  8 * v.coeff (i + 256 * j) + 4 * ditherBit r i

/-- k, the sum of the four distances of group i. -/
def helpSum (v : Poly) (r : List Byte) (i : Nat) : Nat :=
  roundDist (helpX v r i 0) + roundDist (helpX v r i 1) + roundDist (helpX v r i 2)
    + roundDist (helpX v r i 3)

/-- s, 1 when k >= 2Q. -/
def helpSel (v : Poly) (r : List Byte) (i : Nat) : Nat := if 2 * Q ≤ helpSum v r i then 1 else 0

/-- vt[j], the selected candidate. -/
def helpVt (v : Poly) (r : List Byte) (i j : Nat) : Nat :=
  if helpSel v r i = 1 then roundDown (helpX v r i j) else roundUp (helpX v r i j)

/-- c[n], n = i + 256 j: a difference to vt[3] for j = 0, 1, 2 and s + 2 vt[3] for j = 3, mod 4. -/
def helpCoeff (v : Poly) (r : List Byte) (n : Nat) : Nat :=
  let i := n % 256
  let j := n / 256
  if j < 3 then (((helpVt v r i j : Int) - helpVt v r i 3) % 4).toNat
  else (helpSel v r i + 2 * helpVt v r i 3) % 4

/-- R203. -/
def execHelprec (rd rs1 : PReg) (boff : BOff) (s : State) : Result :=
  withBytes boff 32 s fun r => putPoly rd (Poly.tab (helpCoeff (s.poly rs1) r)) s

/-! ## REC-FN (R204) -/

/-- Bits 1:0 of a helper coefficient. -/
def low2 (c : Poly) (k : Nat) : Nat := c.coeff k &&& 3

/-- t[j] of group i. It is never below 86023 (R204), so the subtraction is exact. -/
def recT (v c : Poly) (i j : Nat) : Nat :=
  let c3 := low2 c (i + 768)
  if j < 3 then 16 * Q + 8 * v.coeff (i + 256 * j) - Q * (2 * low2 c (i + 256 * j) + c3)
  else 16 * Q + 8 * v.coeff (i + 768) - Q * c3

/-- The sum of the four distances of group i. -/
def recSum (v c : Poly) (i : Nat) : Nat :=
  decodeDist (recT v c i 0) + decodeDist (recT v c i 1) + decodeDist (recT v c i 2)
    + decodeDist (recT v c i 3)

/-- Key bit i: 1 if the sum is below 8Q. -/
def keyBit (v c : Poly) (i : Nat) : Nat := if recSum v c i < 8 * Q then 1 else 0

/-- Key byte b holds the key bits 8b..8b+7, bit i in bit i mod 8. -/
def keyByte (v c : Poly) (b : Nat) : Byte :=
  BitVec.ofNat 8 ((List.range 8).foldl (fun acc m => acc ||| keyBit v c (8 * b + m) <<< m) 0)

/-- R205. No polynomial register changes. -/
def execReconcile (rs1 rs2 : PReg) (boff : BOff) (s : State) : Result :=
  putBytes boff ((List.range 32).map (keyByte (s.poly rs1) (s.poly rs2))) s

/-! ## The helper-data byte codec -/

/-- h[i] (R206). -/
def packByte (c : Poly) (i : Nat) : Byte :=
  BitVec.ofNat 8
    (low2 c (4 * i) ||| low2 c (4 * i + 1) <<< 2 ||| low2 c (4 * i + 2) <<< 4
      ||| low2 c (4 * i + 3) <<< 6)

/-- The 256 bytes of R206. -/
def packBytes (c : Poly) : List Byte := (List.range 256).map (packByte c)

/-- R207. -/
def execHpack (rs1 : PReg) (boff : BOff) (s : State) : Result :=
  putBytes boff (packBytes (s.poly rs1)) s

/-- c[k] (R208). -/
def unpackCoeff (h : List Byte) (k : Nat) : Nat := (h.getD (k / 4) 0).toNat >>> (2 * (k % 4)) &&& 3

/-- R209. -/
def execHunpack (rd : PReg) (boff : BOff) (s : State) : Result :=
  withBytes boff 256 s fun h => putPoly rd (Poly.tab (unpackCoeff h)) s

end Sys2Proof.Machine
end

