-- ==== Sys2Proof/Machine/Transform.lean ====
section
/-! DEFINITION. NTT and INTT (spec/42_transform.md). The meanings are the sums of R160 and R162,
each output computed as the value of a polynomial at a point, which R164 lets a model use directly
(log 12); the butterfly schedule of R164 stands beside them. -/

namespace Sys2Proof.Machine

/-- R167: a primitive 2048-th root of unity mod Q. -/
def psi : Nat := 7

/-- R167: PSI^-1 mod Q. -/
def psiInv : Nat := 8778

/-- R167: OMEGA = PSI^2 mod Q. -/
def omega : Nat := 49

/-- R167: OMEGA^-1 = 8778^2 mod Q. -/
def omegaInv : Nat := 8778 ^ 2 % Q

/-- R167: N^-1 mod Q. -/
def nInv : Nat := 12277

/-- `b^e mod Q` of the constant table (R167): b is a 2048-th root of unity, so e counts mod 2048. -/
def rootPow (b e : Nat) : Nat := b ^ (e % 2048) % Q

/-- The value mod Q at the point x of the polynomial with these coefficients, lowest first
(R160: "the value of the polynomial a(X) = sum a[j] X^j"). -/
def evalAt (x : Nat) : List Nat → Nat
  | [] => 0
  | c :: cs => (c + x * evalAt x cs) % Q

/-- R160: output i is a(PSI^(2i+1)). -/
def nttCoeff (a : List Nat) (i : Nat) : Nat := evalAt (rootPow psi (2 * i + 1)) a

/-- R162: `N^-1 * sum over i of A[i] * PSI^(-(2i+1)j)`; the factor PSI^-j is taken out of the sum,
what is left is the value of A at PSI^(-2j). -/
def inttCoeff (a : List Nat) (j : Nat) : Nat :=
  nInv * (rootPow psiInv j * evalAt (rootPow psiInv (2 * j)) a % Q) % Q

/-- The forward transform of R160 on a register's content. -/
def nttPoly (a : Poly) : Poly :=
  let r := a.residues
  Poly.tab (nttCoeff r)

/-- The inverse transform of R162 on a register's content. -/
def inttPoly (a : Poly) : Poly :=
  let r := a.residues
  Poly.tab (inttCoeff r)

/-- R161: natural order, all inputs read first. -/
def execNtt (rd rs1 : PReg) (s : State) : Result := putPoly rd (nttPoly (s.poly rs1)) s

/-- R163. -/
def execIntt (rd rs1 : PReg) (s : State) : Result := putPoly rd (inttPoly (s.poly rs1)) s

/-! ## The butterfly schedule of R164 -/

/-- The index with its 10 bits reversed (R164 step 2). -/
def bitrev10 (i : Nat) : Nat :=
  (List.range 10).foldl (fun acc b => 2 * acc + i / 2 ^ b % 2) 0

/-- All butterflies of one length (R164 step 3). Their pairs {s+j, s+j+len} are disjoint, so the new
sequence is given index by index: n is s+j in the lower half of its block, s+j+len in the upper. -/
def ctStage (root len : Nat) (x : List Nat) : List Nat :=
  (List.range N).map fun n =>
    let j := n % len
    let w := root ^ (512 / len * j) % Q
    if n % (2 * len) < len then
      (x.getD n 0 + x.getD (n + len) 0 * w % Q) % Q
    else
      (x.getD (n - len) 0 + Q - x.getD n 0 * w % Q) % Q

/-- R164 steps 2 and 3 with OMEGA or its inverse as `root`: bit reversal, then len = 1, 2, ..., 512. -/
def ctCore (root : Nat) (x : List Nat) : List Nat :=
  (List.range 10).foldl (fun y m => ctStage root (2 ^ m) y)
    ((List.range N).map fun i => x.getD (bitrev10 i) 0)

/-- The forward schedule NTT-CT of R164. -/
def nttCT (a : Poly) : List Nat :=
  ctCore omega ((List.range N).map fun j => a.coeff j % Q * psi ^ j % Q)

/-- The inverse schedule of R164. -/
def inttCT (a : Poly) : List Nat :=
  let x := ctCore omegaInv ((List.range N).map fun i => a.coeff i % Q)
  (List.range N).map fun j => x.getD j 0 * nInv * psiInv ^ j % Q

end Sys2Proof.Machine
end

