-- ==== Sys2Proof/Machine/Dispatch.lean ====
section
/-! DEFINITION. The completion of a command (spec/60_exceptions.md R254): one arm per constructor. -/

namespace Sys2Proof.Machine

def exec (i : Instr) (s : State) : Host.Outcome State Fault Refusal :=
  match i with
  | .nop => Sys2Proof.Machine.execNop s
  | .pzero rd => Sys2Proof.Machine.execPzero rd s
  | .pcopy rd rs1 => Sys2Proof.Machine.execPcopy rd rs1 s
  | .bzero => Sys2Proof.Machine.execBzero s
  | .preduce rd rs1 => Sys2Proof.Machine.execPreduce rd rs1 s
  | .pfreeze rd rs1 => Sys2Proof.Machine.execPfreeze rd rs1 s
  | .pflipabs rd rs1 => Sys2Proof.Machine.execPflipabs rd rs1 s
  | .padd rd rs1 rs2 => Sys2Proof.Machine.execPadd rd rs1 rs2 s
  | .psub rd rs1 rs2 => Sys2Proof.Machine.execPsub rd rs1 rs2 s
  | .pmul rd rs1 rs2 => Sys2Proof.Machine.execPmul rd rs1 rs2 s
  | .ntt rd rs1 => Sys2Proof.Machine.execNtt rd rs1 s
  | .intt rd rs1 => Sys2Proof.Machine.execIntt rd rs1 s
  | .noise rd boff => Sys2Proof.Machine.execNoise rd boff s
  | .helprec rd rs1 boff => Sys2Proof.Machine.execHelprec rd rs1 boff s
  | .reconcile rs1 rs2 boff => Sys2Proof.Machine.execReconcile rs1 rs2 boff s
  | .hpack rs1 boff => Sys2Proof.Machine.execHpack rs1 boff s
  | .hunpack rd boff => Sys2Proof.Machine.execHunpack rd boff s

end Sys2Proof.Machine
end

