-- ==== Sys2Proof/Machine/Engine.lean ====
section
/-! DEFINITION. One turn of the engine agent (spec/60_exceptions.md R254,
spec/70_reset_and_hazards.md R296), and the placing of a command for it. -/

namespace Sys2Proof.Machine

/-- The completion enabled by INFLIGHT: of the command it holds, of the reset clear, or none, when
nothing changes (log 1). -/
def engineTurn (s : State) : Result :=
  match s.inflight with
  | .empty => .next s
  | .clear => .next { s with inflight := .empty }
  | .command w =>
    match decode w with
    | .ok i => exec i s
    | .error _ => .fault .inflightInvalid

/-- `s` with the word `w` in INFLIGHT, where an accepted command stands (R252), and the next turn the
engine's (log 4). -/
def State.placeCommand (s : State) (w : Word) : State :=
  { s with inflight := .command w, turns := .engine :: s.turns }

end Sys2Proof.Machine
end

