-- ==== Sys2Proof/Machine/Flags.lean ====
section
/-! DEFINITION. The status and control words as the host reads and writes them, and the interrupt
line (spec/10_state.md R28 to R36). NH-CORE has no arithmetic flags (R25). -/

namespace Sys2Proof.Machine

/-- ID (10_state.md R28). -/
def idWord : Word := 0x4E480001

/-- CFG (10_state.md R29). -/
def cfgWord : Word := 0x05A33001

/-- STATUS as read: BUSY bit 0, DONE bit 1, ERR bit 2, BERR bit 3, ERRCODE bits 7:4, the rest 0
(10_state.md R31). -/
def State.statusWord (s : State) : Word :=
  0#24 ++ s.errcode ++ BitVec.ofBool s.berr ++ BitVec.ofBool s.err ++ BitVec.ofBool s.done
    ++ BitVec.ofBool s.busy

/-- CTRL as read: the three enables, bits 31:3 read 0 (10_state.md R33). -/
def State.ctrlWord (s : State) : Word :=
  0#29 ++ BitVec.ofBool s.ieBerr ++ BitVec.ofBool s.ieErr ++ BitVec.ofBool s.ieDone

/-- The W1C write of `w` to STATUS (10_state.md R32), the "return" of 60_exceptions.md R270. -/
def State.writeStatus (s : State) (w : Word) : State :=
  { s with
    done := s.done && !w.getLsbD 1
    err := s.err && !w.getLsbD 2
    errcode := if w.getLsbD 2 then 0 else s.errcode
    berr := s.berr && !w.getLsbD 3 }

/-- The write of `w` to CTRL: the three enables, then the soft reset if SRST is written 1
(10_state.md R33, 70_reset_and_hazards.md R294). -/
def State.writeCtrl (s : State) (w : Word) : State :=
  let t := { s with ieDone := w.getLsbD 0, ieErr := w.getLsbD 1, ieBerr := w.getLsbD 2 }
  if w.getLsbD 31 then t.resetCore else t

/-- The interrupt output, a level (10_state.md R36, 60_exceptions.md R266). -/
def State.irq (s : State) : Bool := s.done && s.ieDone || s.err && s.ieErr || s.berr && s.ieBerr

end Sys2Proof.Machine
end

