-- ==== Sys2Proof/Machine/HostPort.lean ====
section
/-! DEFINITION. The slave bus port (spec/20_memory.md) and the reset pin
(spec/70_reset_and_hazards.md R290): what one host action does. -/

namespace Sys2Proof.Machine

/-- The bytes a transfer moves (20_memory.md R61). -/
def Size.bytes : Size → Nat
  | .b1 => 1
  | .b2 => 2
  | .b4 => 4

/-- The six control registers (10_state.md section 4). -/
inductive CtrlReg where
  | id | cfg | cmd | status | ctrl | errcmd
  deriving DecidableEq, Repr

/-- The control register at an aligned offset below 0x18 (10_state.md section 4). -/
def ctrlRegAt (o : Nat) : Option CtrlReg :=
  match o with
  | 0x00 => some .id
  | 0x04 => some .cfg
  | 0x08 => some .cmd
  | 0x0C => some .status
  | 0x10 => some .ctrl
  | 0x14 => some .errcmd
  | _ => none

/-- What an admitted access reaches. -/
inductive Target where
  | ctrl (r : CtrlReg)
  /-- Bytes of BMEM from B[a] on. -/
  | bmem (a : Nat)
  /-- Coefficients of P[r] from index k on. -/
  | poly (r : PReg) (k : Nat)
  deriving DecidableEq, Repr

/-- The address decoder of the window (20_memory.md R62): what an access of this size reaches, none
for a bus error (R63 reserved, R65 misaligned, R66 control size, R68 busy, R69 byte access to P). BMEM stands at 0x2000 and P at 0x4000, so the offset in BMEM is
`o mod 0x2000`, the register is `o / 0x800` mod 8 (`PReg.ofIndex`) and the coefficient `o / 2` mod N. -/
def route (busy : Bool) (off : Offset) (size : Size) : Option Target :=
  let o := off.toNat
  if o % size.bytes ≠ 0 then none
  else if o < 0x18 then (if size = .b4 then (ctrlRegAt o).map .ctrl else none)
  else if o < 0x2000 then none
  else if busy then none
  else if o < 0x4000 then some (.bmem (o % 0x2000))
  else if size = .b1 then none
  else some (.poly (PReg.ofIndex (o / 0x800)) (o / 2 % N))

/-- The value a read of a control register returns; no read has a side effect (R66). -/
def State.readCtrl (s : State) : CtrlReg → Word
  | .id => idWord
  | .cfg => cfgWord
  | .cmd => 0
  | .status => s.statusWord
  | .ctrl => s.ctrlWord
  | .errcmd => s.errcmd

/-- The effect of a 4-byte write to a control register (10_state.md R28 to R34). -/
def State.writeCtrlReg (s : State) (r : CtrlReg) (w : Word) : State :=
  match r with
  | .id => s
  | .cfg => s
  | .cmd => s.submit w
  | .status => s.writeStatus w
  | .ctrl => s.writeCtrl w
  | .errcmd => s

/-- Read data of an admitted access, zero above its size (20_memory.md R61, R67, R69). -/
def State.readTarget (s : State) (size : Size) : Target → Word
  | .ctrl r => s.readCtrl r
  | .bmem a => BitVec.ofNat 32 (bytesToNat (s.bmem.readBytes a size.bytes))
  | .poly r k =>
    let v := s.poly r
    if size = .b4 then BitVec.ofNat 32 (v.coeff k + 65536 * v.coeff (k + 1))
    else BitVec.ofNat 32 (v.coeff k)

/-- The effect of an admitted write; `wdata` above its size is ignored (20_memory.md R61, R67, R69). -/
def State.writeTarget (s : State) (size : Size) (w : Word) : Target → State
  | .ctrl r => s.writeCtrlReg r w
  | .bmem a => { s with bmem := s.bmem.writeBytes a (wordBytes w size.bytes) }
  | .poly r k =>
    let v := (s.poly r).set k (w.extractLsb' 0 16)
    s.setPoly r (if size = .b4 then v.set (k + 1) (w.extractLsb' 16 16) else v)

/-- `Read(off, size)` (20_memory.md R61, R70). -/
def busRead (off : Offset) (size : Size) (s : State) : State :=
  match route s.busy off size with
  | none => { s.busError with response := some .readError }
  | some t => { s with response := some (.readData (s.readTarget size t)) }

/-- `Write(off, size, w)` (20_memory.md R61, R70). -/
def busWrite (off : Offset) (size : Size) (w : Word) (s : State) : State :=
  match route s.busy off size with
  | none => { s.busError with response := some .writeError }
  | some t => { s.writeTarget size w t with response := some .writeDone }

/-- The data the port returns with an answer: 0 on a read error (20_memory.md R70), none for a
write. -/
def Response.rdata : Response → Option Word
  | .readData v => some v
  | .writeDone => none
  | .readError => some 0
  | .writeError => none

/-- The error response of the port (20_memory.md R61). -/
def Response.isError : Response → Bool
  | .readData _ => false
  | .writeDone => false
  | .readError => true
  | .writeError => true

/-- The reset pin driven to `level`: the reset happens as one step when it returns to 1, and only
then (70_reset_and_hazards.md R290; log 5). -/
def driveResetPin (level : Bool) (s : State) : State :=
  if level && !s.rstN then { s.resetCore with rstN := true } else { s with rstN := level }

/-- One turn of the host: its next action, `rest` the ones after it. WAIT reads STATUS and is over
when the value read has BUSY = 0. A bus access while `rst_n` is 0 is refused (R290, log 6). -/
def hostAct (a : HostAction) (rest : List HostAction) (s : State) : Result :=
  match a with
  | .resetPin level => .next (driveResetPin level { s with host := rest })
  | .read off size =>
    if s.rstN then .next (busRead off size { s with host := rest }) else .refused .accessInReset
  | .write off size w =>
    if s.rstN then .next (busWrite off size w { s with host := rest }) else .refused .accessInReset
  | .wait =>
    if s.rstN then
      .next (busRead 0x00C .b4 { s with host := if s.busy then .wait :: rest else rest })
    else .refused .accessInReset

/-- A turn of the host; with nothing left to do it changes nothing (log 1). -/
def hostTurn (s : State) : Result :=
  match s.host with
  | [] => .next s
  | a :: rest => hostAct a rest s

/-! ## The window in the host's address space (92_eei_decisions.md D44) -/

/-- The host address of an offset of a window at `base` (D44). -/
def hostAddress (base : Nat) (off : Offset) : Nat := base + off.toNat

/-- The offset a host address reaches in a window at `base`, none outside its 0x8000 bytes (R62). -/
def windowOffset (base addr : Nat) : Option Offset :=
  if base ≤ addr ∧ addr < base + 0x8000 then some (BitVec.ofNat 15 (addr - base)) else none

/-- The host's read of an address of its own space, the window standing at NHCORE_BASE. -/
def hostRead (addr : Nat) (size : Size) : Option HostAction :=
  (windowOffset Config.nhcoreBase addr).map fun off => .read off size

/-- The host's write to an address of its own space, the window standing at NHCORE_BASE. -/
def hostWrite (addr : Nat) (size : Size) (w : Word) : Option HostAction :=
  (windowOffset Config.nhcoreBase addr).map fun off => .write off size w

end Sys2Proof.Machine
end

