-- ==== Sys2Proof/Machine/Step.lean ====
section
/-! DEFINITION. The step of the whole machine: one turn of one agent (spec/20_memory.md R60). -/

namespace Sys2Proof.Machine

/-- The next turn is the one `turns` names. When `turns` names none the engine completes what is in
flight before the host goes on (70_reset_and_hazards.md R306: a completion is eventually taken;
log 1). -/
def step (s : State) : Host.Outcome State Fault Refusal :=
  match s.turns with
  | .engine :: ts => engineTurn { s with turns := ts }
  | .host :: ts => hostTurn { s with turns := ts }
  | [] => if s.busy then engineTurn s else hostTurn s

/-- `s` with the command of `nbits` bits `w` (bits above 0) placed in INFLIGHT, where the engine
takes the command it completes, and the engine's turn next: the very next step runs it (log 4). -/
def State.withFetchWord (s : State) (nbits w : Nat) : State :=
  s.placeCommand (BitVec.ofNat 32 (w % 2 ^ nbits))

end Sys2Proof.Machine
end

