-- ==== Sys2Proof/Machine/Assembler.lean ====
section
/-! DEFINITION. The assembler syntax, the pseudo-instructions and the host notation of
spec/30_encoding.md (R99, R100 and the paragraph after it). -/

namespace Sys2Proof.Machine

/-! ## Pseudo-instructions (R100) -/

/-- `PSQR pd, ps` is `PMUL pd, ps, ps`. -/
def psqr (d s : PReg) : Instr := .pmul d s s

/-- `PDBL pd, ps` is `PADD pd, ps, ps`. -/
def pdbl (d s : PReg) : Instr := .padd d s s

/-- `PMOV pd, ps` is `PCOPY pd, ps`. -/
def pmov (d s : PReg) : Instr := .pcopy d s

/-- `PNEG pd, ps` is `PZERO pd` then `PSUB pd, pd, ps`; it requires pd != ps. -/
def pneg (d s : PReg) : List Instr := [.pzero d, .psub d d s]

end Sys2Proof.Machine

namespace Sys2Proof

/-! ## Printing a command (R99) -/

/-- `p0`..`p7`. -/
def PReg.asm (r : PReg) : String := "p" ++ toString r.index

/-- BOFF as a decimal number. -/
def asmBoff (o : BOff) : String := toString o.toNat

/-- The assembler form of a command: the mnemonic, then its used operands in the order RD, RS1,
RS2, BOFF, separated by commas (R99). -/
def Instr.asm : Instr → String
  | .nop => "NOP"
  | .pzero d => "PZERO " ++ d.asm
  | .pcopy d s => "PCOPY " ++ d.asm ++ ", " ++ s.asm
  | .bzero => "BZERO"
  | .preduce d s => "PREDUCE " ++ d.asm ++ ", " ++ s.asm
  | .pfreeze d s => "PFREEZE " ++ d.asm ++ ", " ++ s.asm
  | .pflipabs d s => "PFLIPABS " ++ d.asm ++ ", " ++ s.asm
  | .padd d s t => "PADD " ++ d.asm ++ ", " ++ s.asm ++ ", " ++ t.asm
  | .psub d s t => "PSUB " ++ d.asm ++ ", " ++ s.asm ++ ", " ++ t.asm
  | .pmul d s t => "PMUL " ++ d.asm ++ ", " ++ s.asm ++ ", " ++ t.asm
  | .ntt d s => "NTT " ++ d.asm ++ ", " ++ s.asm
  | .intt d s => "INTT " ++ d.asm ++ ", " ++ s.asm
  | .noise d o => "NOISE " ++ d.asm ++ ", " ++ asmBoff o
  | .helprec d s o => "HELPREC " ++ d.asm ++ ", " ++ s.asm ++ ", " ++ asmBoff o
  | .reconcile s t o => "REC " ++ s.asm ++ ", " ++ t.asm ++ ", " ++ asmBoff o
  | .hpack s o => "HPACK " ++ s.asm ++ ", " ++ asmBoff o
  | .hunpack d o => "HUNPACK " ++ d.asm ++ ", " ++ asmBoff o

end Sys2Proof

namespace Sys2Proof.Machine

/-! ## Reading a line (R99, R100) -/

/-- A lower-case letter for an upper-case one: mnemonics and register names are case-insensitive. -/
def lowerChar (c : Char) : Char := if 65 ≤ c.toNat ∧ c.toNat ≤ 90 then Char.ofNat (c.toNat + 32) else c

/-- Cut a line at every character that `sep` names. -/
def cut (sep : Char → Bool) : List Char → List (List Char)
  | [] => [[]]
  | c :: cs =>
    match cut sep cs with
    | [] => [[c]]
    | w :: ws => if sep c then [] :: w :: ws else (c :: w) :: ws

/-- Drop the spaces at both ends. -/
def trimChars (cs : List Char) : List Char :=
  (((cs.dropWhile (· == ' ')).reverse).dropWhile (· == ' ')).reverse

/-- The value of a digit, decimal or hexadecimal. -/
def digitVal (c : Char) : Option Nat :=
  if 48 ≤ c.toNat ∧ c.toNat ≤ 57 then some (c.toNat - 48)
  else if 97 ≤ c.toNat ∧ c.toNat ≤ 102 then some (c.toNat - 87)
  else none

/-- A nonempty numeral in the given base. -/
def readDigits (base : Nat) (cs : List Char) : Option Nat :=
  if cs.isEmpty then none
  else cs.foldl (fun acc c =>
    match acc, digitVal c with
    | some n, some d => if d < base then some (base * n + d) else none
    | _, _ => none) (some 0)

/-- BOFF as a decimal or `0x` number, below 8192 (R94, R99). -/
def readBoff (cs : List Char) : Option BOff :=
  let n := match cs with
    | '0' :: 'x' :: hs => readDigits 16 hs
    | ds => readDigits 10 ds
  match n with
  | some v => if v < 8192 then some (BitVec.ofNat 13 v) else none
  | none => none

/-- A register name `p0`..`p7`. -/
def readReg (cs : List Char) : Option PReg :=
  match cs with
  | ['p', c] =>
    match digitVal c with
    | some n => if n < 8 then some (PReg.ofIndex n) else none
    | none => none
  | _ => none

/-- A command with one register operand. -/
def asm1 (k : PReg → Instr) (ops : List (List Char)) : Option (List Instr) :=
  match ops with
  | [a] => (readReg a).map fun d => [k d]
  | _ => none

/-- A command with two register operands. -/
def asm2 (k : PReg → PReg → List Instr) (ops : List (List Char)) : Option (List Instr) :=
  match ops with
  | [a, b] => (readReg a).bind fun d => (readReg b).map fun s => k d s
  | _ => none

/-- A command with three register operands. -/
def asm3 (k : PReg → PReg → PReg → Instr) (ops : List (List Char)) : Option (List Instr) :=
  match ops with
  | [a, b, c] =>
    (readReg a).bind fun d => (readReg b).bind fun s => (readReg c).map fun t => [k d s t]
  | _ => none

/-- A command with one register and a byte offset. -/
def asm1o (k : PReg → BOff → Instr) (ops : List (List Char)) : Option (List Instr) :=
  match ops with
  | [a, o] => (readReg a).bind fun d => (readBoff o).map fun b => [k d b]
  | _ => none

/-- A command with two registers and a byte offset. -/
def asm2o (k : PReg → PReg → BOff → Instr) (ops : List (List Char)) : Option (List Instr) :=
  match ops with
  | [a, c, o] =>
    (readReg a).bind fun d => (readReg c).bind fun s => (readBoff o).map fun b => [k d s b]
  | _ => none

/-- The commands of a mnemonic (in lower case) and its operand texts, pseudo-instructions expanded
(R99, R100). PNEG requires pd != ps. -/
def assembleOp (mnemonic : String) (ops : List (List Char)) : Option (List Instr) :=
  match mnemonic with
  | "nop" => if ops.isEmpty then some [.nop] else none
  | "pzero" => asm1 .pzero ops
  | "pcopy" => asm2 (fun d s => [.pcopy d s]) ops
  | "bzero" => if ops.isEmpty then some [.bzero] else none
  | "preduce" => asm2 (fun d s => [.preduce d s]) ops
  | "pfreeze" => asm2 (fun d s => [.pfreeze d s]) ops
  | "pflipabs" => asm2 (fun d s => [.pflipabs d s]) ops
  | "padd" => asm3 .padd ops
  | "psub" => asm3 .psub ops
  | "pmul" => asm3 .pmul ops
  | "ntt" => asm2 (fun d s => [.ntt d s]) ops
  | "intt" => asm2 (fun d s => [.intt d s]) ops
  | "noise" => asm1o .noise ops
  | "helprec" => asm2o .helprec ops
  | "rec" => asm2o .reconcile ops
  | "hpack" => asm1o .hpack ops
  | "hunpack" => asm1o .hunpack ops
  | "psqr" => asm2 (fun d s => [psqr d s]) ops
  | "pdbl" => asm2 (fun d s => [pdbl d s]) ops
  | "pmov" => asm2 (fun d s => [pmov d s]) ops
  | "pneg" => (asm2 (fun d s => if d = s then [] else pneg d s) ops).bind fun is =>
      if is.isEmpty then none else some is
  | _ => none

/-- The commands one line of assembler text stands for, none if it is no line of R99 or R100. The
mnemonic ends at the first space; operands are separated by commas, and spaces around a part do not
count (the white space is a DESIGN CHOICE, log 13). -/
def assemble (line : List Char) : Option (List Instr) :=
  let cs := trimChars (line.map lowerChar)
  let name := cs.takeWhile (· != ' ')
  let rest := trimChars (cs.drop name.length)
  let ops := if rest.isEmpty then [] else (cut (· == ',') rest).map trimChars
  assembleOp (String.ofList name) ops

/-! ## The host notation -/

/-- `W32 off, v`. -/
def w32 (off : Offset) (v : Word) : HostAction := .write off .b4 v
/-- `W16 off, v`. -/
def w16 (off : Offset) (v : Word) : HostAction := .write off .b2 v
/-- `W8 off, v`. -/
def w8 (off : Offset) (v : Word) : HostAction := .write off .b1 v
/-- `R32 off`. -/
def r32 (off : Offset) : HostAction := .read off .b4
/-- `R16 off`. -/
def r16 (off : Offset) : HostAction := .read off .b2

/-- The host's issue of one command and its wait for it (70_reset_and_hazards.md R300). -/
def issue (i : Instr) : List HostAction := [w32 0x008 (encode i), .wait]

end Sys2Proof.Machine
end

