-- ==== Sys2Proof/Safety.lean ====
section
/-! DEFINITION. What claims about runs are stated in: the invariant of the machine, the end of a host
program, and the host's own obligations. -/

namespace Sys2Proof.Machine

/-- What every step keeps: BMEM is in canonical form; ERRCODE is 0 while ERR = 0 and one of 1, 2, 3,
5 while ERR = 1 (10_state.md R31, 60_exceptions.md R258); INFLIGHT holds only words that passed
CHECK (R252); and DONE = 0 while BUSY = 1 (R252, R254, R292). -/
structure Safety.Inv (s : State) : Prop where
  bmem_wf : s.bmem.wf
  errcode_clear : s.err = false → s.errcode = 0
  errcode_set : s.err = true → s.errcode ∈ [1, 2, 3, 5]
  inflight_checked : ∀ w, s.inflight = .command w → check w = 0
  busy_not_done : s.busy = true → s.done = false

/-- The end of a host program run (70_reset_and_hazards.md R308): no access is left and BUSY = 0. -/
def Safety.finished (s : State) : Prop := s.host = [] ∧ s.busy = false

/-- The pin stays at 1 during the run: the host meets its obligation of R290. -/
def Safety.outOfReset (s : State) : Prop :=
  s.rstN = true ∧ ∀ a ∈ s.host, a ≠ HostAction.resetPin false

/-! ## Whose move a step is -/

/-- The step from `s` is the host's action `a`, and `r` is `s` with that action and the turn taken
off (20_memory.md R60, R72; log 1). -/
structure Safety.HostMoves (s : State) (a : HostAction) (r : State) : Prop where
  turn : s.turns = .host :: r.turns ∨ (s.turns = [] ∧ r.turns = [] ∧ s.busy = false)
  action : s.host = a :: r.host
  rest : r = { s with host := r.host, turns := r.turns }

/-- The step from `s` is the engine's, and `r` is `s` with that turn taken off (R60, R254; log 1). -/
structure Safety.EngineMoves (s r : State) : Prop where
  turn : s.turns = .engine :: r.turns ∨ (s.turns = [] ∧ r.turns = [] ∧ s.busy = true)
  rest : r = { s with turns := r.turns }

/-! ## Frames -/

/-- Everything a completion says about the state outside P and BMEM: INFLIGHT empty, DONE = 1, and
nothing else changed (60_exceptions.md R254). -/
structure Safety.Completes (s t : State) : Prop where
  inflight : t.inflight = .empty
  done : t.done = true
  err : t.err = s.err
  berr : t.berr = s.berr
  errcode : t.errcode = s.errcode
  ieDone : t.ieDone = s.ieDone
  ieErr : t.ieErr = s.ieErr
  ieBerr : t.ieBerr = s.ieBerr
  errcmd : t.errcmd = s.errcmd
  rstN : t.rstN = s.rstN
  response : t.response = s.response
  host : t.host = s.host
  turns : t.turns = s.turns

/-- Of P and BMEM only the register `rd` may differ. -/
def Safety.OnlyReg (rd : PReg) (s t : State) : Prop :=
  (∀ r, r ≠ rd → t.poly r = s.poly r) ∧ ∀ a, t.bmem.read a = s.bmem.read a

/-- Of P and BMEM only the n bytes from B[a] on may differ. -/
def Safety.OnlyBytes (a n : Nat) (s t : State) : Prop :=
  (∀ r, t.poly r = s.poly r) ∧
    ∀ b, (b < a ∨ a + n ≤ b) → t.bmem.read b = s.bmem.read b

/-- The two states differ in P and BMEM at most. -/
def Safety.SameButData (s t : State) : Prop := t = { s with polys := t.polys, bmem := t.bmem }

/-- The step from `s` is a reset: a write to CTRL with SRST = 1, or the reset pin returning to 1
(70_reset_and_hazards.md R290, R294). -/
def Safety.ResetMove (s : State) : Prop :=
  (∃ r w, Safety.HostMoves s (.write 0x010 .b4 w) r ∧ w.getLsbD 31 = true ∧ s.rstN = true) ∨
    ∃ r, Safety.HostMoves s (.resetPin true) r ∧ s.rstN = false

end Sys2Proof.Machine
end

