-- ==== Sys2Proof/Certificates/Slice0/Obligations.lean ====
section
/-! DEFINITION. The statements for the provers, each from a numbered rule of spec/ or derived from
its sections. Nothing is proved here. -/

open Sys2Proof Sys2Proof.Machine Sys2Proof.Machine.Safety

/-! ## Encoding (30_encoding.md) -/

/-- Decoding the word of a well-formed command gives the command back, for every command and every
operand value (derived from R91, R95, R96, R101). -/
def Obligations.DecodeOfEncode : Prop :=
  ∀ i : Instr, wellFormed i = true → decode (encode i) = .ok i

/-- A word that decodes has one meaning: encoding it gives the same word, and the command is well
formed (derived from R96, R98). -/
def Obligations.EncodeOfDecode : Prop :=
  ∀ (w : Word) (i : Instr), decode w = .ok i → encode i = w ∧ wellFormed i = true

/-- R101: `word = OPC << 26 | RD << 23 | RS1 << 20 | RS2 << 17 | BOFF`, unused fields and RSVD 0, for
each of the 17 commands with the OPC of R96. -/
def Obligations.EncodeIsTheFieldSum : Prop :=
  ∀ (d s t : PReg) (o : BOff),
    (encode .nop).toNat = 0x00 <<< 26 ∧
    (encode (.pzero d)).toNat = 0x01 <<< 26 ||| d.index <<< 23 ∧
    (encode (.pcopy d s)).toNat = 0x02 <<< 26 ||| d.index <<< 23 ||| s.index <<< 20 ∧
    (encode .bzero).toNat = 0x03 <<< 26 ∧
    (encode (.preduce d s)).toNat = 0x04 <<< 26 ||| d.index <<< 23 ||| s.index <<< 20 ∧
    (encode (.pfreeze d s)).toNat = 0x05 <<< 26 ||| d.index <<< 23 ||| s.index <<< 20 ∧
    (encode (.pflipabs d s)).toNat = 0x06 <<< 26 ||| d.index <<< 23 ||| s.index <<< 20 ∧
    (encode (.padd d s t)).toNat =
      0x08 <<< 26 ||| d.index <<< 23 ||| s.index <<< 20 ||| t.index <<< 17 ∧
    (encode (.psub d s t)).toNat =
      0x09 <<< 26 ||| d.index <<< 23 ||| s.index <<< 20 ||| t.index <<< 17 ∧
    (encode (.pmul d s t)).toNat =
      0x0A <<< 26 ||| d.index <<< 23 ||| s.index <<< 20 ||| t.index <<< 17 ∧
    (encode (.ntt d s)).toNat = 0x10 <<< 26 ||| d.index <<< 23 ||| s.index <<< 20 ∧
    (encode (.intt d s)).toNat = 0x11 <<< 26 ||| d.index <<< 23 ||| s.index <<< 20 ∧
    (encode (.noise d o)).toNat = 0x18 <<< 26 ||| d.index <<< 23 ||| o.toNat ∧
    (encode (.helprec d s o)).toNat =
      0x20 <<< 26 ||| d.index <<< 23 ||| s.index <<< 20 ||| o.toNat ∧
    (encode (.reconcile s t o)).toNat =
      0x21 <<< 26 ||| s.index <<< 20 ||| t.index <<< 17 ||| o.toNat ∧
    (encode (.hpack s o)).toNat = 0x22 <<< 26 ||| s.index <<< 20 ||| o.toNat ∧
    (encode (.hunpack d o)).toNat = 0x23 <<< 26 ||| d.index <<< 23 ||| o.toNat

/-- R256: CHECK answers the code of the first of its three checks that fails, 0 if none does. The
unused fields and the byte counts of each OPC are those of the table of R96. -/
def Obligations.CheckAnswersTheFirstFailingCheck : Prop :=
  ∀ w : Word,
    let opc := w.toNat / 2 ^ 26
    let rd := w.toNat / 2 ^ 23 % 8
    let rs1 := w.toNat / 2 ^ 20 % 8
    let rs2 := w.toNat / 2 ^ 17 % 8
    let rsvd := w.toNat / 2 ^ 13 % 16
    let boff := w.toNat % 2 ^ 13
    let legal := opc ∈ [0x00, 0x01, 0x02, 0x03, 0x04, 0x05, 0x06, 0x08, 0x09, 0x0A, 0x10, 0x11, 0x18,
      0x20, 0x21, 0x22, 0x23]
    let nonzero := rsvd ≠ 0 ∨
      (rd ≠ 0 ∧ opc ∈ [0x00, 0x03, 0x21, 0x22]) ∨
      (rs1 ≠ 0 ∧ opc ∈ [0x00, 0x01, 0x03, 0x18, 0x23]) ∨
      (rs2 ≠ 0 ∧ opc ∉ [0x08, 0x09, 0x0A, 0x21]) ∨
      (boff ≠ 0 ∧ opc ∉ [0x18, 0x20, 0x21, 0x22, 0x23])
    let outside := (opc = 0x18 ∧ 8192 < boff + 4096) ∨
      (opc ∈ [0x20, 0x21] ∧ 8192 < boff + 32) ∨
      (opc ∈ [0x22, 0x23] ∧ 8192 < boff + 256)
    (¬legal → check w = 1) ∧
    (legal → nonzero → check w = 2) ∧
    (legal → ¬nonzero → outside → check w = 3) ∧
    (legal → ¬nonzero → ¬outside → check w = 0)

/-- The decoder and the CHECK block agree on every word: what decodes passes, and what does not is
rejected with the code of the decoder's reason (derived from R98 and 60_exceptions.md R256, R258). -/
def Obligations.DecodeAgreesWithCheck : Prop :=
  ∀ w : Word, (∀ i, decode w = .ok i → check w = 0) ∧ (∀ e, decode w = .error e → check w = e.code)

/-- A valid word selects one row of the opcode map, and no other row selects it (derived from R96,
R98). -/
def Obligations.ValidWordSelectsOneRow : Prop :=
  ∀ w : Word, check w = 0 → ∃ r ∈ opTable, w &&& r.mask = r.pattern ∧
    ∀ q ∈ opTable, w &&& q.mask = q.pattern → q = r

/-- Words written out bit by bit from R91 and R96, one for each family, decode to the commands they
stand for. -/
def Obligations.SpecWordsDecode : Prop :=
  decode 0b00000000000000000000000000000000 = .ok .nop ∧
  decode 0b00000101100000000000000000000000 = .ok (.pzero .p3) ∧
  decode 0b00011011111100000000000000000000 = .ok (.pflipabs .p7 .p7) ∧
  decode 0b00100101100100000000000000000000 = .ok (.psub .p3 .p1 .p0) ∧
  decode 0b01000000100000000000000000000000 = .ok (.ntt .p1 .p0) ∧
  decode 0b01100011000000000001000000000000 = .ok (.noise .p6 4096) ∧
  decode 0b10000011111000000001111111100000 = .ok (.helprec .p7 .p6 8160) ∧
  decode 0b10000100000000100000001100000000 = .ok (.reconcile .p0 .p1 0x300)

/-! ## The step and the command lifecycle (60_exceptions.md) -/

/-- A step runs the decoded command: when INFLIGHT holds a word that decodes to `i` and the engine
moves, the step is exec of `i` at the state with that turn taken off (derived from R254). -/
def Obligations.StepRunsTheDecodedCommand : Prop :=
  ∀ (s r : State) (w : Word) (i : Instr), EngineMoves s r → s.inflight = .command w →
    decode w = .ok i → step s = exec i r

/-- The command that `withFetchWord` places is the one the very next step runs (the model's own
convention, log 4). -/
def Obligations.PlacedCommandRunsNext : Prop :=
  ∀ (s : State) (nbits w : Nat) (i : Instr), decodeTableWord nbits w = some i →
    step (s.withFetchWord nbits w) =
      exec i { s with inflight := .command (BitVec.ofNat 32 (w % 2 ^ nbits)) }

/-- R254: the engine's step on an accepted word always answers: it is the decoded command's
completion, which leaves INFLIGHT empty and DONE = 1 and raises nothing; on CLEAR it is that of
R296. -/
def Obligations.CompletionNeverFails : Prop :=
  ∀ s r : State, EngineMoves s r →
    (∀ w, s.inflight = .command w → check w = 0 →
      ∃ i t, decode w = .ok i ∧ step s = exec i r ∧ step s = .next t ∧ Completes r t ∧
        t.busy = false) ∧
    (s.inflight = .clear → step s = .next { r with inflight := .empty })

/-- R296: completing CLEAR sets INFLIGHT to empty and changes nothing else; BUSY reads 0 and IRQ is
as it was. -/
def Obligations.ClearOnlyEmptiesInflight : Prop :=
  ∀ s r : State, EngineMoves s r → s.inflight = .clear →
    ∃ t, step s = .next t ∧ t = { r with inflight := .empty } ∧ t.busy = false ∧ t.done = r.done ∧
      t.irq = r.irq

/-- R252, R262: a 4-byte write of w to CMD. ERR = 1: ignored. Else BUSY = 1: rejected with code 5.
Else a failing check rejects it with its code. Else INFLIGHT <- w, DONE <- 0. A rejection sets ERR,
ERRCODE and ERRCMD and changes nothing else. The write completes without a bus error. -/
def Obligations.SubmitFollowsTheSubmitBlock : Prop :=
  ∀ (s r : State) (w : Word), HostMoves s (.write 0x008 .b4 w) r → s.rstN = true →
    let answered := { r with response := some .writeDone }
    (s.err = true → step s = .next answered) ∧
    (s.err = false → s.busy = true →
      step s = .next { answered with err := true, errcode := 5, errcmd := w }) ∧
    (s.err = false → s.busy = false → check w ≠ 0 →
      step s = .next { answered with err := true, errcode := check w, errcmd := w }) ∧
    (s.err = false → s.busy = false → check w = 0 →
      step s = .next { answered with inflight := .command w, done := false })

/-- Every completion, of any of the 17 commands, leaves the control and status state as R254 says,
whatever it does to P and BMEM (derived from R254 and 10_state.md R25). -/
def Obligations.EveryCompletionHasTheFrame : Prop :=
  ∀ (i : Instr) (s t : State), exec i s = .next t → Completes s t

/-! ## Control registers (10_state.md) -/

/-- R28, R29: ID and CFG read their constants and nothing changes; a write to them is accepted and
has no effect. -/
def Obligations.IdAndCfgAreConstant : Prop :=
  ∀ s r : State, s.rstN = true →
    (HostMoves s (.read 0x000 .b4) r →
      step s = .next { r with response := some (.readData 0x4E480001) }) ∧
    (HostMoves s (.read 0x004 .b4) r →
      step s = .next { r with response := some (.readData 0x05A33001) }) ∧
    (∀ w, HostMoves s (.write 0x000 .b4 w) r → step s = .next { r with response := some .writeDone }) ∧
    (∀ w, HostMoves s (.write 0x004 .b4 w) r → step s = .next { r with response := some .writeDone })

/-- Reads of CMD, STATUS, CTRL and ERRCMD return 0, the five status fields, the three enables and
the recorded word, reserved bits 0, and change nothing; a write to ERRCMD has no effect (derived from
R30, R31, R33, R34, R35 and 20_memory.md R66). -/
def Obligations.StatusRegistersReadTheirFields : Prop :=
  ∀ s r : State, s.rstN = true →
    (HostMoves s (.read 0x008 .b4) r → step s = .next { r with response := some (.readData 0) }) ∧
    (HostMoves s (.read 0x00C .b4) r → ∃ v : Word,
      step s = .next { r with response := some (.readData v) } ∧
      v.toNat = (if s.inflight = .empty then 0 else 1) + 2 * s.done.toNat + 4 * s.err.toNat +
        8 * s.berr.toNat + 16 * s.errcode.toNat) ∧
    (HostMoves s (.read 0x010 .b4) r → ∃ v : Word,
      step s = .next { r with response := some (.readData v) } ∧
      v.toNat = s.ieDone.toNat + 2 * s.ieErr.toNat + 4 * s.ieBerr.toNat) ∧
    (HostMoves s (.read 0x014 .b4) r →
      step s = .next { r with response := some (.readData s.errcmd) }) ∧
    (∀ w, HostMoves s (.write 0x014 .b4 w) r → step s = .next { r with response := some .writeDone })

/-- R32: a write of w to STATUS clears DONE, ERR with ERRCODE, and BERR where w has a 1 in bit 1, 2,
3, and changes nothing else, BUSY = 1 or not. -/
def Obligations.StatusWriteClearsOnes : Prop :=
  ∀ (s r : State) (w : Word), HostMoves s (.write 0x00C .b4 w) r → s.rstN = true →
    step s = .next { r with
      done := if w.getLsbD 1 = true then false else r.done
      err := if w.getLsbD 2 = true then false else r.err
      errcode := if w.getLsbD 2 = true then 0 else r.errcode
      berr := if w.getLsbD 3 = true then false else r.berr
      response := some .writeDone }

/-- A write of w to CTRL sets the three enables from bits 2:0, BUSY = 1 or not; with bit 31 set
the soft reset follows, which returns CTRL to 0; a read returns the enables and 0 in every other
bit (derived from R33). -/
def Obligations.CtrlWriteSetsEnables : Prop :=
  ∀ (s r : State), s.rstN = true →
    (∀ w : Word, HostMoves s (.write 0x010 .b4 w) r →
      (w.getLsbD 31 = false → step s = .next { r with
        ieDone := w.getLsbD 0
        ieErr := w.getLsbD 1
        ieBerr := w.getLsbD 2
        response := some .writeDone }) ∧
      (w.getLsbD 31 = true → ∃ t, step s = .next t ∧ t.inflight = .clear ∧ t.ctrlWord = 0)) ∧
    (HostMoves s (.read 0x010 .b4) r → ∃ v : Word,
      step s = .next { r with response := some (.readData v) } ∧
      v.getLsbD 0 = s.ieDone ∧ v.getLsbD 1 = s.ieErr ∧ v.getLsbD 2 = s.ieBerr ∧
      ∀ b, 3 ≤ b → v.getLsbD b = false)

/-- R36: IRQ = (DONE & IE_DONE) | (ERR & IE_ERR) | (BERR & IE_BERR). -/
def Obligations.InterruptLineIsALevel : Prop :=
  ∀ s : State, s.irq = true ↔
    (s.done = true ∧ s.ieDone = true) ∨ (s.err = true ∧ s.ieErr = true) ∨
      (s.berr = true ∧ s.ieBerr = true)

/-! ## Reset (70_reset_and_hazards.md) -/

/-- The machine right after reset: STATUS = 1 until the reset clear completes, which is the next step,
and 0 afterwards; P, BMEM, CTRL, ERRCMD and IRQ 0 throughout (derived from R37; that the engine moves
next is log 1). -/
def Obligations.ResetStateIsZeroAndBusy : Prop :=
  State.reset.inflight = .clear ∧ State.reset.statusWord = 1 ∧
    ∃ t, step State.reset = .next t ∧ t.inflight = .empty ∧ t.statusWord = 0 ∧
      ∀ u ∈ [State.reset, t],
        (∀ r k, k < 1024 → (u.poly r).coeff k = 0) ∧ (∀ a, u.bmem.read a = 0) ∧
        u.ctrlWord = 0 ∧ u.errcmd = 0 ∧ u.irq = false

/-- R292, R294: a reset of either kind, from any state and while any command is in flight, zeroes P,
BMEM, the status bits, CTRL and ERRCMD in one step, leaves INFLIGHT = CLEAR and answers no bus
error. -/
def Obligations.EitherResetErasesEverything : Prop :=
  ∀ s r : State,
    ((∃ w, HostMoves s (.write 0x010 .b4 w) r ∧ w.getLsbD 31 = true ∧ s.rstN = true) ∨
      (HostMoves s (.resetPin true) r ∧ s.rstN = false)) →
    ∃ t, step s = .next t ∧
      (∀ q k, k < 1024 → (t.poly q).coeff k = 0) ∧ (∀ a, t.bmem.read a = 0) ∧
      t.inflight = .clear ∧ t.busy = true ∧ t.done = false ∧ t.err = false ∧ t.berr = false ∧
      t.errcode = 0 ∧ t.ieDone = false ∧ t.ieErr = false ∧ t.ieBerr = false ∧ t.errcmd = 0 ∧
      t.rstN = true ∧ t.host = r.host ∧ t.turns = r.turns ∧
      (s.rstN = true → t.response = some .writeDone)

/-- A bus access, a WAIT among them, while `rst_n` is 0 is refused by name (the model's treatment of
R290 and 93_implementation_defined.md U13, log 6). -/
def Obligations.AccessInResetIsRefused : Prop :=
  ∀ s r : State, s.rstN = false →
    (∀ off size, HostMoves s (.read off size) r → step s = .refused .accessInReset) ∧
    (∀ off size w, HostMoves s (.write off size w) r → step s = .refused .accessInReset) ∧
    (HostMoves s .wait r → step s = .refused .accessInReset)

/-! ## The bus (20_memory.md) -/

/-- R65, R68, R70: an access gets a bus error exactly when it is misaligned, of the wrong size for
its range, in the reserved range, or to BMEM or P while BUSY = 1. A bus error sets BERR, returns data
0 and changes nothing else; every other access is admitted, control registers also while BUSY = 1. -/
def Obligations.BusErrorExactlyWhen : Prop :=
  ∀ (s r : State) (off : Offset) (size : Size), s.rstN = true →
    let o := off.toNat
    let bad := o % size.bytes ≠ 0 ∨ (o < 0x18 ∧ size ≠ .b4) ∨ (0x18 ≤ o ∧ o < 0x2000) ∨
      (0x2000 ≤ o ∧ s.busy = true) ∨ (0x4000 ≤ o ∧ size = .b1)
    (HostMoves s (.read off size) r →
      (bad → step s = .next { r with berr := true, response := some .readError }) ∧
      (¬bad → ∃ v, step s = .next { r with response := some (.readData v) })) ∧
    (∀ w, HostMoves s (.write off size w) r →
      (bad → step s = .next { r with berr := true, response := some .writeError }) ∧
      (¬bad → ∃ t, step s = .next t ∧ t.response = some .writeDone)) ∧
    Response.rdata .readError = some 0

/-- R67 (its bytes placed as in R64): an aligned access of size s to B[a] while BUSY = 0 reads the bytes, the first in the
least significant place, or writes byte i of the data to B[a + i] and nothing else. -/
def Obligations.BmemAccessesMoveBytes : Prop :=
  ∀ (s r : State) (a : Nat) (size : Size), s.rstN = true → s.busy = false →
    a % size.bytes = 0 → a + size.bytes ≤ 8192 →
    (HostMoves s (.read (BitVec.ofNat 15 (0x2000 + a)) size) r → ∃ v : Word,
      step s = .next { r with response := some (.readData v) } ∧
      v.toNat = ∑ i ∈ Finset.range size.bytes, (s.bmem.read (a + i)).toNat * 2 ^ (8 * i)) ∧
    (∀ w, HostMoves s (.write (BitVec.ofNat 15 (0x2000 + a)) size w) r → s.bmem.wf →
      ∃ t, step s = .next t ∧
        (∀ i, i < size.bytes → t.bmem.read (a + i) = w.extractLsb' (8 * i) 8) ∧
        (∀ b, (b < a ∨ a + size.bytes ≤ b) → t.bmem.read b = s.bmem.read b) ∧
        t = { r with bmem := t.bmem, response := some .writeDone })

/-- R69: 2 and 4-byte accesses to P[p][k] while BUSY = 0 read or write one coefficient, or for k even
the pair k, k+1, any 16-bit value, and nothing else; a 1-byte access gets a bus error. -/
def Obligations.PolyAccessesMoveCoefficients : Prop :=
  ∀ (s r : State) (p : PReg) (k : Nat), s.rstN = true → s.busy = false → k < 1024 →
    let off := BitVec.ofNat 15 (0x4000 + 0x800 * p.index + 2 * k)
    (HostMoves s (.read off .b2) r → ∃ v : Word,
      step s = .next { r with response := some (.readData v) } ∧ v.toNat = (s.poly p).coeff k) ∧
    (k % 2 = 0 → HostMoves s (.read off .b4) r → ∃ v : Word,
      step s = .next { r with response := some (.readData v) } ∧
      v.toNat = (s.poly p).coeff k ||| (s.poly p).coeff (k + 1) <<< 16) ∧
    (∀ w : Word, HostMoves s (.write off .b2 w) r → ∃ t, step s = .next t ∧
      (t.poly p).coeff k = w.toNat % 65536 ∧
      (∀ j, j ≠ k → (t.poly p).coeff j = (s.poly p).coeff j) ∧
      (∀ q, q ≠ p → t.poly q = s.poly q) ∧
      t = { r with polys := t.polys, response := some .writeDone }) ∧
    (∀ w : Word, k % 2 = 0 → HostMoves s (.write off .b4 w) r → ∃ t, step s = .next t ∧
      (t.poly p).coeff k = w.toNat % 65536 ∧ (t.poly p).coeff (k + 1) = w.toNat / 65536 ∧
      (∀ j, j ≠ k → j ≠ k + 1 → (t.poly p).coeff j = (s.poly p).coeff j) ∧
      (∀ q, q ≠ p → t.poly q = s.poly q) ∧
      t = { r with polys := t.polys, response := some .writeDone }) ∧
    (HostMoves s (.read off .b1) r →
      step s = .next { r with berr := true, response := some .readError }) ∧
    (∀ w, HostMoves s (.write off .b1 w) r →
      step s = .next { r with berr := true, response := some .writeError })

/-- Repeating a read changes nothing more and returns the same value; every write except to CMD and
to CTRL with SRST = 1 is idempotent (derived from R71). -/
def Obligations.AccessesAreIdempotent : Prop :=
  ∀ (s : State) (off : Offset) (size : Size), s.bmem.wf →
    busRead off size (busRead off size s) = busRead off size s ∧
    ∀ w : Word, ¬(off.toNat = 0x008 ∧ size = .b4) →
      ¬(off.toNat = 0x010 ∧ size = .b4 ∧ w.getLsbD 31 = true) →
      busWrite off size w (busWrite off size w s) = busWrite off size w s

/-- Every host address is NHCORE_BASE + offset, for whatever base the platform chooses, and no other
address reaches the window (derived from R62 and 92_eei_decisions.md D44). -/
def Obligations.WindowAddressesAreBasePlusOffset : Prop :=
  ∀ base : Nat, (∀ off : Offset, windowOffset base (hostAddress base off) = some off) ∧
    ∀ (addr : Nat) (off : Offset), windowOffset base addr = some off → hostAddress base off = addr

/-! ## Housekeeping (45_housekeeping.md) -/

/-- R230: the only NOP word is 0; any other word with OPC 0 is rejected with code 2; a NOP is accepted
like every command, completes, sets BUSY and then DONE, and changes nothing in P or BMEM. -/
def Obligations.NopOnlyCompletes : Prop :=
  (∀ w : Word, decode w = .ok .nop ↔ w = 0) ∧
  (∀ w : Word, opcField w = 0 → w ≠ 0 → check w = 2) ∧
  (∀ s : State, s.err = false → s.busy = false →
    s.submit 0 = { s with inflight := .command 0, done := false }) ∧
  ∀ s : State, exec .nop s = .next { s with inflight := .empty, done := true }

/-- R231: after PZERO every coefficient of Pd is 0 and nothing else changed. -/
def Obligations.PzeroZeroesTheRegister : Prop :=
  (∀ w : Word, w &&& 0xFC7FFFFF = 0x04000000 → decode w = .ok (.pzero (rdOf w))) ∧
  ∀ (d : PReg) (s : State), ∃ t, exec (.pzero d) s = .next t ∧ Completes s t ∧ OnlyReg d s t ∧
    ∀ k, k < 1024 → (t.poly d).coeff k = 0

/-- R232: PCOPY copies every coefficient of Ps unchanged to Pd, d = s among them. -/
def Obligations.PcopyCopiesTheRegister : Prop :=
  (∀ w : Word, w &&& 0xFC0FFFFF = 0x08000000 → decode w = .ok (.pcopy (rdOf w) (rs1Of w))) ∧
  ∀ (d a : PReg) (s : State), ∃ t, exec (.pcopy d a) s = .next t ∧ Completes s t ∧ OnlyReg d s t ∧
    ∀ k, k < 1024 → (t.poly d).coeff k = (s.poly a).coeff k

/-- R233: after BZERO every byte of BMEM is 0 and no polynomial register changed; the only BZERO word
is 0x0C000000. -/
def Obligations.BzeroErasesBmem : Prop :=
  (∀ w : Word, decode w = .ok .bzero ↔ w = 0x0C000000) ∧
  ∀ s : State, ∃ t, exec .bzero s = .next t ∧ Completes s t ∧ (∀ r, t.poly r = s.poly r) ∧
    ∀ a, a < 8192 → t.bmem.read a = 0

/-! ## Modular reduction (40_modular.md) -/

/-- R121, R123, R125: PREDUCE, PFREEZE and PFLIPABS put barrett (R120), freeze (R122) and flipabs
(R124) of every coefficient of Ps, for every 16-bit value, into Pd, d = s allowed. -/
def Obligations.ReductionsActOnEveryLane : Prop :=
  (∀ w : Word, w &&& 0xFC0FFFFF = 0x10000000 → decode w = .ok (.preduce (rdOf w) (rs1Of w))) ∧
  (∀ w : Word, w &&& 0xFC0FFFFF = 0x14000000 → decode w = .ok (.pfreeze (rdOf w) (rs1Of w))) ∧
  (∀ w : Word, w &&& 0xFC0FFFFF = 0x18000000 → decode w = .ok (.pflipabs (rdOf w) (rs1Of w))) ∧
  ∀ (d a : PReg) (s : State),
    (∃ t, exec (.preduce d a) s = .next t ∧ Completes s t ∧ OnlyReg d s t ∧
      ∀ k, k < 1024 → ((t.poly d).coeff k : ℤ) =
        (s.poly a).coeff k - ((5 * (s.poly a).coeff k / 65536 : ℕ) : ℤ) * 12289) ∧
    (∃ t, exec (.pfreeze d a) s = .next t ∧ Completes s t ∧ OnlyReg d s t ∧
      ∀ k, k < 1024 → (t.poly d).coeff k = (s.poly a).coeff k % 12289) ∧
    (∃ t, exec (.pflipabs d a) s = .next t ∧ Completes s t ∧ OnlyReg d s t ∧
      ∀ k, k < 1024 → ((t.poly d).coeff k : ℤ) = |((s.poly a).coeff k % 12289 : ℤ) - 6144|)

/-- R120, R122 and the bounds of R126: for every 16-bit a, barrett(a) is congruent to a mod Q and at most 16379,
freeze(a) is barrett followed by one conditional subtraction of Q and at most 12288, and flipabs(a)
is at most 6144. -/
def Obligations.ReductionsAreCongruentAndBounded : Prop :=
  ∀ a : ℕ, a < 65536 →
    ((barrett a : ℤ) = a - ((5 * a / 65536 : ℕ) : ℤ) * 12289 ∧ barrett a ≡ a [MOD 12289] ∧
      barrett a ≤ 16379) ∧
    (freeze a = a % 12289 ∧ freeze a ≤ 12288 ∧
      freeze a = if 12289 ≤ barrett a then barrett a - 12289 else barrett a) ∧
    flipabs a ≤ 6144

/-! ## Polynomial arithmetic (41_poly_arith.md) -/

/-- R140, R141, R142: PADD, PSUB and PMUL put the exact residue of the sum, the biased difference and
the product of each pair of lanes into Pd, for every 16-bit value and any equal registers. -/
def Obligations.ArithmeticActsOnEveryLane : Prop :=
  (∀ w : Word, w &&& 0xFC01FFFF = 0x20000000 →
    decode w = .ok (.padd (rdOf w) (rs1Of w) (rs2Of w))) ∧
  (∀ w : Word, w &&& 0xFC01FFFF = 0x24000000 →
    decode w = .ok (.psub (rdOf w) (rs1Of w) (rs2Of w))) ∧
  (∀ w : Word, w &&& 0xFC01FFFF = 0x28000000 →
    decode w = .ok (.pmul (rdOf w) (rs1Of w) (rs2Of w))) ∧
  ∀ (d a b : PReg) (s : State),
    (∃ t, exec (.padd d a b) s = .next t ∧ Completes s t ∧ OnlyReg d s t ∧
      ∀ k, k < 1024 → (t.poly d).coeff k = ((s.poly a).coeff k + (s.poly b).coeff k) % 12289) ∧
    (∃ t, exec (.psub d a b) s = .next t ∧ Completes s t ∧ OnlyReg d s t ∧
      ∀ k, k < 1024 → ((t.poly d).coeff k : ℤ) =
          (((s.poly a).coeff k : ℤ) + 6 * 12289 - (s.poly b).coeff k) % 12289 ∧
        ((t.poly d).coeff k : ℤ) = (((s.poly a).coeff k : ℤ) - (s.poly b).coeff k) % 12289 ∧
        8199 ≤ ((s.poly a).coeff k : ℤ) + 6 * 12289 - (s.poly b).coeff k) ∧
    (∃ t, exec (.pmul d a b) s = .next t ∧ Completes s t ∧ OnlyReg d s t ∧
      ∀ k, k < 1024 → (t.poly d).coeff k = (s.poly a).coeff k * (s.poly b).coeff k % 12289)

/-- Three laws of R144 (derived from it): PADD then PSUB by the same addend, the sum written to another
register than the addend, returns the first operand mod Q; PADD and PMUL are commutative in RS1 and
RS2; PMUL distributes over PADD mod Q where no intermediate result overwrites an operand still to be
read. Which values the commands write, for every choice of registers, ArithmeticActsOnEveryLane says. -/
def Obligations.ArithmeticObeysTheRingLaws : Prop :=
  ∀ (d e a b c : PReg) (s : State),
    (d ≠ b → ∃ t u, exec (.padd d a b) s = .next t ∧ exec (.psub e d b) t = .next u ∧
      ∀ k, k < 1024 → (u.poly e).coeff k = (s.poly a).coeff k % 12289) ∧
    exec (.padd d a b) s = exec (.padd d b a) s ∧
    exec (.pmul d a b) s = exec (.pmul d b a) s ∧
    (d ≠ b → d ≠ c → d ≠ e → ∃ t u x y z,
      exec (.padd d a b) s = .next t ∧ exec (.pmul d d c) t = .next u ∧
      exec (.pmul d a c) s = .next x ∧ exec (.pmul e b c) x = .next y ∧
      exec (.padd d d e) y = .next z ∧ u.poly d = z.poly d)

/-! ## The transforms (42_transform.md) -/

/-- R167: PSI = 7 is a primitive 2048-th root of unity mod Q, OMEGA = 49 its square and a primitive
1024-th root, and 8778, 8778^2 and 12277 are the inverses of PSI, OMEGA and N. -/
def Obligations.TransformConstantsAreRoots : Prop :=
  psi = 7 ∧ psi ^ 1024 % Q = Q - 1 ∧ psi ^ 2048 % Q = 1 ∧
    (∀ e, 0 < e → e < 2048 → psi ^ e % Q ≠ 1) ∧
    omega = 49 ∧ omega = psi ^ 2 % Q ∧ omega ^ 1024 % Q = 1 ∧
    (∀ e, 0 < e → e < 1024 → omega ^ e % Q ≠ 1) ∧
    psiInv = 8778 ∧ psi * psiInv % Q = 1 ∧ omegaInv = 8778 ^ 2 % Q ∧ omega * omegaInv % Q = 1 ∧
    nInv = 12277 ∧ 1024 * nInv % Q = 1

/-- R160, R161: NTT puts the value of the polynomial of Ps, coefficients mod Q, at PSI^(2i+1) into
coefficient i of Pd, natural order, d = s allowed. -/
def Obligations.NttComputesTheForwardSums : Prop :=
  (∀ w : Word, w &&& 0xFC0FFFFF = 0x40000000 → decode w = .ok (.ntt (rdOf w) (rs1Of w))) ∧
  ∀ (d a : PReg) (s : State), ∃ t, exec (.ntt d a) s = .next t ∧ Completes s t ∧ OnlyReg d s t ∧
    ∀ i, i < 1024 → (t.poly d).coeff i =
      (∑ j ∈ Finset.range 1024, (s.poly a).coeff j % 12289 * 7 ^ ((2 * i + 1) * j)) % 12289

/-- R162, R163: INTT puts N^-1 times the sum over i of A[i] PSI^(-(2i+1)j) into coefficient j of Pd. -/
def Obligations.InttComputesTheInverseSums : Prop :=
  (∀ w : Word, w &&& 0xFC0FFFFF = 0x44000000 → decode w = .ok (.intt (rdOf w) (rs1Of w))) ∧
  ∀ (d a : PReg) (s : State), ∃ t, exec (.intt d a) s = .next t ∧ Completes s t ∧ OnlyReg d s t ∧
    ∀ j, j < 1024 → (t.poly d).coeff j =
      12277 * (∑ i ∈ Finset.range 1024, (s.poly a).coeff i % 12289 * 8778 ^ ((2 * i + 1) * j))
        % 12289

/-- R165: INTT of NTT and NTT of INTT return every coefficient mod Q, for every register content. -/
def Obligations.TransformsAreMutualInverses : Prop :=
  ∀ (d e a : PReg) (s : State),
    (∃ t u, exec (.ntt d a) s = .next t ∧ exec (.intt e d) t = .next u ∧
      ∀ j, j < 1024 → (u.poly e).coeff j = (s.poly a).coeff j % 12289) ∧
    (∃ t u, exec (.intt d a) s = .next t ∧ exec (.ntt e d) t = .next u ∧
      ∀ i, i < 1024 → (u.poly e).coeff i = (s.poly a).coeff i % 12289)

/-- R166: NTT, NTT, PMUL, INTT computes the product of two polynomials in Z_Q[X]/(X^1024 + 1). -/
def Obligations.TransformsMultiplyRingElements : Prop :=
  ∀ (a b x y z d : PReg) (s : State), x ≠ b → x ≠ y →
    ∃ t u v o, exec (.ntt x a) s = .next t ∧ exec (.ntt y b) t = .next u ∧
      exec (.pmul z x y) u = .next v ∧ exec (.intt d z) v = .next o ∧
      ∀ k, k < 1024 → ((o.poly d).coeff k : ℤ) =
        ((∑ i ∈ Finset.range (k + 1), ((s.poly a).coeff i : ℤ) * (s.poly b).coeff (k - i)) -
          ∑ i ∈ Finset.Ico (k + 1) 1024,
            ((s.poly a).coeff i : ℤ) * (s.poly b).coeff (k + 1024 - i)) % 12289

/-- R164: the Cooley-Tukey butterfly schedules, forward and inverse, give exactly the results of R160
and R162 that NTT and INTT write. -/
def Obligations.ButterflyScheduleGivesTheSums : Prop :=
  ∀ a : Poly, nttCT a = (nttPoly a).coeffs.map (·.toNat) ∧
    inttCT a = (inttPoly a).coeffs.map (·.toNat)

/-! ## Noise (43_noise.md) -/

/-- R180, R181: NOISE puts (HW + HW - HW - HW) mod Q of the bytes 4k..4k+3 of the range at BOFF into
coefficient k of Pd and leaves BMEM; the range past BMEM is rejected with code 3. -/
def Obligations.NoiseSumsHammingWeights : Prop :=
  (∀ w : Word, w &&& 0xFC7FE000 = 0x60000000 →
    ((boffField w).toNat ≤ 4096 → decode w = .ok (.noise (rdOf w) (boffField w))) ∧
    (4096 < (boffField w).toNat → check w = 3)) ∧
  ∀ (d : PReg) (o : BOff) (s : State), o.toNat + 4096 ≤ 8192 →
    let hw := fun a => ((List.range 8).countP fun b => (s.bmem.read a).getLsbD b)
    ∃ t, exec (.noise d o) s = .next t ∧ Completes s t ∧ OnlyReg d s t ∧
      ∀ k, k < 1024 → ((t.poly d).coeff k : ℤ) =
        ((hw (o.toNat + 4 * k) : ℤ) + hw (o.toNat + 4 * k + 1) - hw (o.toNat + 4 * k + 2)
          - hw (o.toNat + 4 * k + 3)) % 12289

/-- Over all four-byte inputs the values of one coefficient count as the difference of two
binomial(16, 1/2) variables mod Q (derived from R182: its distribution for uniform bytes). -/
def Obligations.NoiseCountsAreCentredBinomial : Prop :=
  ∀ v : ℕ, v < 12289 →
    (Finset.univ.filter fun y : Fin 256 × Fin 256 × Fin 256 × Fin 256 =>
      noiseLane (BitVec.ofFin y.1) (BitVec.ofFin y.2.1) (BitVec.ofFin y.2.2.1)
        (BitVec.ofFin y.2.2.2) = v).card =
    ∑ x ∈ Finset.range 17, ∑ y ∈ Finset.range 17,
      if ((x : ℤ) - y) % 12289 = v then Nat.choose 16 x * Nat.choose 16 y else 0

/-! ## Reconciliation (44_reconciliation.md) -/

/-- R200, R202, R203: HELPREC computes the block HELPREC-FN group by group from Ps and the 32 dither
bytes at BOFF; the range past BMEM is rejected with code 3. -/
def Obligations.HelprecComputesTheHelper : Prop :=
  (∀ w : Word, w &&& 0xFC0FE000 = 0x80000000 →
    ((boffField w).toNat ≤ 8160 → decode w = .ok (.helprec (rdOf w) (rs1Of w) (boffField w))) ∧
    (8160 < (boffField w).toNat → check w = 3)) ∧
  ∀ (d a : PReg) (o : BOff) (s : State), o.toNat + 32 ≤ 8192 →
    ∃ t, exec (.helprec d a o) s = .next t ∧ Completes s t ∧ OnlyReg d s t ∧
      ∀ i, i < 256 →
        let rbit := (s.bmem.read (o.toNat + i / 8)).toNat >>> (i % 8) &&& 1
        let x := fun j => 8 * (s.poly a).coeff (i + 256 * j) + 4 * rbit
        let v0 := fun j => (x j / 12289 + 1) / 2
        let v1 := fun j => x j / 12289 / 2
        let dist := fun j => |(x j : ℤ) - 2 * 12289 * v0 j|
        let sel := if 2 * 12289 ≤ dist 0 + dist 1 + dist 2 + dist 3 then 1 else 0
        let vt := fun j => if sel = 1 then v1 j else v0 j
        (∀ j, j < 3 → ((t.poly d).coeff (i + 256 * j) : ℤ) = ((vt j : ℤ) - vt 3) % 4) ∧
        (t.poly d).coeff (i + 768) = (sel + 2 * vt 3) % 4

/-- R201, R204, R205: REC computes the block REC-FN from Ps and the helper in Pt, writes key bit i to
bit i mod 8 of byte BOFF + i / 8, and changes no polynomial register and no other byte. -/
def Obligations.RecRecoversTheKeyBits : Prop :=
  (∀ w : Word, w &&& 0xFF81E000 = 0x84000000 →
    ((boffField w).toNat ≤ 8160 → decode w = .ok (.reconcile (rs1Of w) (rs2Of w) (boffField w))) ∧
    (8160 < (boffField w).toNat → check w = 3)) ∧
  ∀ (a b : PReg) (o : BOff) (s : State), s.bmem.wf → o.toNat + 32 ≤ 8192 →
    ∃ t, exec (.reconcile a b o) s = .next t ∧ Completes s t ∧ OnlyBytes o.toNat 32 s t ∧
      ∀ i, i < 256 →
        let c := fun k => (s.poly b).coeff k &&& 3
        let v := fun k => (s.poly a).coeff k
        let x : ℕ → ℤ := fun j =>
          if j < 3 then 16 * 12289 + 8 * v (i + 256 * j) - 12289 * (2 * c (i + 256 * j) + c (i + 768))
          else 16 * 12289 + 8 * v (i + 768) - 12289 * c (i + 768)
        let g : ℤ → ℤ := fun y => |8 * 12289 * ((y / (4 * 12289) + 1) / 2) - y|
        (t.bmem.read (o.toNat + i / 8)).getLsbD (i % 8) =
          decide (g (x 0) + g (x 1) + g (x 2) + g (x 3) < 8 * 12289)

/-- R206, R207: HPACK writes the low two bits of four coefficients to each of the 256 bytes at BOFF,
coefficient 4i lowest, and nothing else. -/
def Obligations.HpackPacksTwoBitFields : Prop :=
  (∀ w : Word, w &&& 0xFF8FE000 = 0x88000000 →
    ((boffField w).toNat ≤ 7936 → decode w = .ok (.hpack (rs1Of w) (boffField w))) ∧
    (7936 < (boffField w).toNat → check w = 3)) ∧
  ∀ (a : PReg) (o : BOff) (s : State), s.bmem.wf → o.toNat + 256 ≤ 8192 →
    ∃ t, exec (.hpack a o) s = .next t ∧ Completes s t ∧ OnlyBytes o.toNat 256 s t ∧
      ∀ i, i < 256 → (t.bmem.read (o.toNat + i)).toNat =
        (s.poly a).coeff (4 * i) &&& 3 ||| ((s.poly a).coeff (4 * i + 1) &&& 3) <<< 2 |||
          ((s.poly a).coeff (4 * i + 2) &&& 3) <<< 4 ||| ((s.poly a).coeff (4 * i + 3) &&& 3) <<< 6

/-- R209 (with the function of R208): HUNPACK puts bits 2(k mod 4)+1 : 2(k mod 4) of byte
BOFF + k / 4 into coefficient k of Pd and leaves BMEM. -/
def Obligations.HunpackUnpacksTwoBitFields : Prop :=
  (∀ w : Word, w &&& 0xFC7FE000 = 0x8C000000 →
    ((boffField w).toNat ≤ 7936 → decode w = .ok (.hunpack (rdOf w) (boffField w))) ∧
    (7936 < (boffField w).toNat → check w = 3)) ∧
  ∀ (d : PReg) (o : BOff) (s : State), o.toNat + 256 ≤ 8192 →
    ∃ t, exec (.hunpack d o) s = .next t ∧ Completes s t ∧ OnlyReg d s t ∧
      ∀ k, k < 1024 → (t.poly d).coeff k =
        (s.bmem.read (o.toNat + k / 4)).toNat >>> (2 * (k % 4)) &&& 3

/-- HUNPACK after HPACK gives the coefficients' low two bits back, and HPACK after HUNPACK gives the
256 bytes back (derived from R208). -/
def Obligations.HelperCodecRoundTrips : Prop :=
  ∀ (d a : PReg) (o : BOff) (s : State), s.bmem.wf → o.toNat + 256 ≤ 8192 →
    (∃ t u, exec (.hpack a o) s = .next t ∧ exec (.hunpack d o) t = .next u ∧
      ∀ k, k < 1024 → (u.poly d).coeff k = (s.poly a).coeff k % 4) ∧
    (∃ t u, exec (.hunpack d o) s = .next t ∧ exec (.hpack d o) t = .next u ∧
      ∀ b, u.bmem.read b = s.bmem.read b)

/-- R210: the helper depends only on the coefficients mod Q, and the key only on them and on the
helper coefficients mod 4. -/
def Obligations.ReconciliationSeesOnlyResidues : Prop :=
  ∀ (v v' c c' : Poly) (r : List Byte),
    (∀ k, k < 1024 → v.coeff k % 12289 = v'.coeff k % 12289) →
    (∀ k, k < 1024 → c.coeff k % 4 = c'.coeff k % 4) →
    (∀ n, n < 1024 → helpCoeff v r n = helpCoeff v' r n) ∧
    (∀ b, b < 32 → keyByte v c b = keyByte v' c' b)

/-- A meaning given a byte range outside BMEM stops by name (the model's choice, log 10: no accepted
command has such a range, 60_exceptions.md R256). -/
def Obligations.RangeOutsideBmemStops : Prop :=
  ∀ (i : Instr) (s : State), wellFormed i = false → exec i s = .fault .bmemRange

/-! ## Pseudo-instructions (30_encoding.md R100) -/

/-- R100: PSQR, PDBL and PMOV expand to one command each, and the two commands of PNEG leave the
negation of Ps in Pd when pd != ps, and 0 when pd = ps. -/
def Obligations.PseudoInstructionsExpand : Prop :=
  (∀ d a : PReg, psqr d a = .pmul d a a ∧ pdbl d a = .padd d a a ∧ pmov d a = .pcopy d a ∧
    pneg d a = [.pzero d, .psub d d a]) ∧
  ∀ (d a : PReg) (s : State), ∃ t u, exec (.pzero d) s = .next t ∧ exec (.psub d d a) t = .next u ∧
    ∀ k, k < 1024 →
      (d ≠ a → ((u.poly d).coeff k : ℤ) = (-((s.poly a).coeff k : ℤ)) % 12289) ∧
      (d = a → (u.poly d).coeff k = 0)

/-! ## The whole machine -/

/-- Every step keeps the invariant: BMEM canonical, ERRCODE in step with ERR, INFLIGHT only checked
words, DONE = 0 while BUSY = 1 (derived from 10_state.md R31, R35, R60 and 60_exceptions.md R252 to
R262). -/
def Obligations.StepKeepsTheInvariant : Prop :=
  ∀ s t : State, Inv s → step s = .next t → Inv t

/-- The invariant holds right after reset. -/
def Obligations.ResetMeetsTheInvariant : Prop := Inv State.reset

/-- From a state that meets the invariant no step faults, and while `rst_n` is 1 every step answers a
next state (derived from 60_exceptions.md R254, R264 and 70_reset_and_hazards.md R290). -/
def Obligations.StepNeverFaults : Prop :=
  ∀ s : State, Inv s →
    (∀ f, step s ≠ .fault f) ∧ (s.rstN = true → ∃ t, step s = .next t)

/-- A host program run ends: from a state that meets the invariant, with the reset pin kept at 1,
within as many steps as there are turns drawn and twice the host's actions and one, a state is
reached with no access left and BUSY = 0, whatever the turns (derived from R306, R308). It rests on two
choices of the model: that a completion is not postponed forever (the turns run out and the engine
then moves first, log 1), and that the host is a finite list of actions whose WAIT polls STATUS once a
turn (log 2). -/
def Obligations.EveryHostProgramFinishes : Prop :=
  ∀ s : State, Inv s → outOfReset s →
    ∃ k t, k ≤ s.turns.length + 2 * s.host.length + 1 ∧ Sys2Proof.core.run k s = .next t ∧ finished t

/-- P and BMEM change only in the completion of a command, in an admitted host write to them while
BUSY = 0, or in a reset (derived from R60, R68, R70 and 60_exceptions.md R262). -/
def Obligations.DataChangesOnlyByThreeCauses : Prop :=
  ∀ s t : State, step s = .next t → (t.polys ≠ s.polys ∨ t.bmem ≠ s.bmem) →
    (∃ r w, EngineMoves s r ∧ s.inflight = .command w ∧ t.inflight = .empty ∧ t.done = true) ∨
    (∃ r off size w, HostMoves s (.write off size w) r ∧ 0x2000 ≤ off.toNat ∧ s.busy = false) ∨
    ResetMove s

/-- While BUSY = 1 the host learns nothing about P and BMEM: two states that differ only there give
the same answer to any host action and stay alike outside P and BMEM (derived from R68 and
10_state.md R35). -/
def Obligations.BusyHidesTheData : Prop :=
  ∀ (s s' r : State) (a : HostAction), SameButData s s' → s.busy = true → HostMoves s a r →
    ∀ t, step s = .next t → ∃ t', step s' = .next t' ∧ SameButData t t'

/-- Erasure leaves no trace: after PZERO, BZERO or a soft reset, states that differed only in the
erased storage are the same state (derived from 45_housekeeping.md R234 and R292). -/
def Obligations.ErasureLeavesNoTrace : Prop :=
  (∀ (s : State) (d : PReg) (v : Poly), exec (.pzero d) (s.setPoly d v) = exec (.pzero d) s) ∧
  (∀ (s : State) (m : Memory), exec .bzero { s with bmem := m } = exec .bzero s) ∧
  (∀ (s r : State) (w : Word) (p : PolyFile) (m : Memory), HostMoves s (.write 0x010 .b4 w) r →
    w.getLsbD 31 = true → step { s with polys := p, bmem := m } = step s)

/-- While ERR = 1, ERR, ERRCODE and ERRCMD keep their values through every step but a write of 1 to
STATUS bit 2, which clears ERR and ERRCODE and keeps ERRCMD, and a reset (derived from 10_state.md
R34 and 60_exceptions.md R252, R270). -/
def Obligations.FirstErrorIsKept : Prop :=
  ∀ s t : State, step s = .next t → s.err = true →
    (t.err = true ∧ t.errcode = s.errcode ∧ t.errcmd = s.errcmd) ∨
    (t.err = false ∧ t.errcode = 0 ∧ t.errcmd = s.errcmd ∧
      ∃ r w, HostMoves s (.write 0x00C .b4 w) r ∧ w.getLsbD 2 = true) ∨
    (t.err = false ∧ t.errcode = 0 ∧ t.errcmd = 0 ∧ ResetMove s)

/-- ERRCMD changes only by a rejection that sets ERR, to the rejected word, or by a reset, to 0
(derived from 10_state.md R34 and 60_exceptions.md R262). -/
def Obligations.ErrcmdHoldsTheRejectedWord : Prop :=
  ∀ s t : State, step s = .next t → t.errcmd ≠ s.errcmd →
    (s.err = false ∧ t.err = true ∧ ∃ r, HostMoves s (.write 0x008 .b4 t.errcmd) r ∧
      ((s.busy = true ∧ t.errcode = 5) ∨ (s.busy = false ∧ t.errcode = check t.errcmd))) ∨
    (t.errcmd = 0 ∧ ResetMove s)

/-- DONE becomes 1 only by the completion of a command, and BUSY becomes 1 only by the acceptance of
a checked word or by a reset (derived from 10_state.md R31 and 60_exceptions.md R252, R254). -/
def Obligations.DoneAndBusyHaveOneCauseEach : Prop :=
  ∀ s t : State, step s = .next t →
    (s.done = false → t.done = true → ∃ r w, EngineMoves s r ∧ s.inflight = .command w) ∧
    (s.busy = false → t.busy = true →
      (∃ r w, HostMoves s (.write 0x008 .b4 w) r ∧ check w = 0 ∧ s.err = false ∧
        t.inflight = .command w ∧ t.done = false) ∨
      (ResetMove s ∧ t.inflight = .clear))
end

