-- ==== Sys2Proof/Laws/Decode.lean ====
section
/-! SUPPORT. The fields of a packed word, registers and their field values, and what a word that a
row of the opcode map selects has in a field. -/

namespace Sys2Proof

/-- `a || b` as a number (00_scope.md R6). -/
theorem toNat_append_add {n m : Nat} (x : BitVec n) (y : BitVec m) :
    (x ++ y).toNat = x.toNat * 2 ^ m + y.toNat := by
  rw [BitVec.toNat_append, ← Nat.shiftLeft_add_eq_or_of_lt y.isLt, Nat.shiftLeft_eq]

/-- A packed word as a number. -/
theorem packFields_toNat (opc : BitVec 6) (rd rs1 rs2 : BitVec 3) (o : BOff) :
    (packFields opc rd rs1 rs2 o).toNat = opc.toNat * 2 ^ 26 + rd.toNat * 2 ^ 23 +
      rs1.toNat * 2 ^ 20 + rs2.toNat * 2 ^ 17 + o.toNat := by
  simp only [packFields, toNat_append_add]
  norm_num
  omega

@[simp] theorem opcField_packFields (opc : BitVec 6) (rd rs1 rs2 : BitVec 3) (o : BOff) :
    opcField (packFields opc rd rs1 rs2 o) = opc := by
  apply BitVec.eq_of_toNat_eq
  rw [opcField, BitVec.extractLsb'_toNat, packFields_toNat, Nat.shiftRight_eq_div_pow]
  have := opc.isLt; have := rd.isLt; have := rs1.isLt; have := rs2.isLt; have := o.isLt
  norm_num at *
  omega

@[simp] theorem rdField_packFields (opc : BitVec 6) (rd rs1 rs2 : BitVec 3) (o : BOff) :
    rdField (packFields opc rd rs1 rs2 o) = rd := by
  apply BitVec.eq_of_toNat_eq
  rw [rdField, BitVec.extractLsb'_toNat, packFields_toNat, Nat.shiftRight_eq_div_pow]
  have := opc.isLt; have := rd.isLt; have := rs1.isLt; have := rs2.isLt; have := o.isLt
  norm_num at *
  omega

@[simp] theorem rs1Field_packFields (opc : BitVec 6) (rd rs1 rs2 : BitVec 3) (o : BOff) :
    rs1Field (packFields opc rd rs1 rs2 o) = rs1 := by
  apply BitVec.eq_of_toNat_eq
  rw [rs1Field, BitVec.extractLsb'_toNat, packFields_toNat, Nat.shiftRight_eq_div_pow]
  have := opc.isLt; have := rd.isLt; have := rs1.isLt; have := rs2.isLt; have := o.isLt
  norm_num at *
  omega

@[simp] theorem rs2Field_packFields (opc : BitVec 6) (rd rs1 rs2 : BitVec 3) (o : BOff) :
    rs2Field (packFields opc rd rs1 rs2 o) = rs2 := by
  apply BitVec.eq_of_toNat_eq
  rw [rs2Field, BitVec.extractLsb'_toNat, packFields_toNat, Nat.shiftRight_eq_div_pow]
  have := opc.isLt; have := rd.isLt; have := rs1.isLt; have := rs2.isLt; have := o.isLt
  norm_num at *
  omega

@[simp] theorem rsvdField_packFields (opc : BitVec 6) (rd rs1 rs2 : BitVec 3) (o : BOff) :
    rsvdField (packFields opc rd rs1 rs2 o) = 0 := by
  rw [show (0 : BitVec 4) = BitVec.ofNat 4 0 from rfl]
  apply BitVec.eq_of_toNat_eq
  rw [rsvdField, BitVec.extractLsb'_toNat, packFields_toNat, Nat.shiftRight_eq_div_pow]
  have := opc.isLt; have := rd.isLt; have := rs1.isLt; have := rs2.isLt; have := o.isLt
  norm_num at *
  omega

@[simp] theorem boffField_packFields (opc : BitVec 6) (rd rs1 rs2 : BitVec 3) (o : BOff) :
    boffField (packFields opc rd rs1 rs2 o) = o := by
  apply BitVec.eq_of_toNat_eq
  rw [boffField, BitVec.extractLsb'_toNat, packFields_toNat, Nat.shiftRight_eq_div_pow]
  have := opc.isLt; have := rd.isLt; have := rs1.isLt; have := rs2.isLt; have := o.isLt
  norm_num at *
  omega

/-- A word with RSVD = 0 is its fields side by side (30_encoding.md R91). -/
theorem packFields_fields (w : Word) (h : rsvdField w = 0) :
    packFields (opcField w) (rdField w) (rs1Field w) (rs2Field w) (boffField w) = w := by
  have h' : (rsvdField w).toNat = 0 := by rw [h]; rfl
  apply BitVec.eq_of_toNat_eq
  have hw := w.isLt
  rw [packFields_toNat]
  simp only [rsvdField, opcField, rdField, rs1Field, rs2Field, boffField,
    BitVec.extractLsb'_toNat, Nat.shiftRight_eq_div_pow] at *
  norm_num at *
  omega

theorem PReg.index_lt (r : PReg) : r.index < 8 := by cases r <;> decide

@[simp] theorem PReg.ofIndex_index (r : PReg) : PReg.ofIndex r.index = r := by cases r <;> rfl

/-- Reading a register back from its field (30_encoding.md R92). -/
@[simp] theorem PReg.ofIndex_field (r : PReg) : PReg.ofIndex r.field.toNat = r := by cases r <;> rfl

theorem PReg.index_ofIndex {n : Nat} (h : n < 8) : (PReg.ofIndex n).index = n := by
  interval_cases n <;> rfl

/-- Every value of a field names a register, and no two the same. -/
@[simp] theorem PReg.field_ofIndex (f : BitVec 3) : (PReg.ofIndex f.toNat).field = f := by
  apply BitVec.eq_of_toNat_eq
  rw [PReg.field, PReg.index_ofIndex f.isLt, BitVec.toNat_ofNat, Nat.mod_eq_of_lt f.isLt]

/-- Where a row's mask covers a whole field, a selected word has the pattern's field. -/
theorem field_of_select {w mask pat : Word} (h : w &&& mask = pat) (lo len : Nat)
    (hm : mask.extractLsb' lo len = BitVec.allOnes len) :
    w.extractLsb' lo len = pat.extractLsb' lo len := by
  rw [← h, BitVec.extractLsb'_and, hm, BitVec.and_allOnes]

theorem wellFormed_iff (i : Instr) :
    wellFormed i = true ↔ i.boff.toNat + i.byteCount ≤ bmemSize := by
  simp only [wellFormed, decide_eq_true_eq]

/-- A decoded command's byte range fits BMEM. -/
theorem accept_eq_ok {w : Word} {a b c d : Bool} {i j : Instr} (h : accept w a b c d i = .ok j) :
    j = i ∧ wellFormed i = true ∧ rsvdField w = 0 ∧ (a = false → rdField w = 0) ∧
      (b = false → rs1Field w = 0) ∧ (c = false → rs2Field w = 0) ∧ (d = false → boffField w = 0) := by
  unfold accept at h
  split_ifs at h with h1 h2 h3 h4 h5 h6
  refine ⟨(Except.ok.inj h).symm, h6, not_not.1 h1, ?_, ?_, ?_, ?_⟩ <;> rintro rfl <;> simp_all

end Sys2Proof
end

