-- ==== Sys2Proof/Laws/State.lean ====
section
/-! SUPPORT. What each update of State leaves in each field: one lemma per field per update, true by
rfl, so that no later proof unfolds a record update. -/

namespace Sys2Proof.Machine

variable (s : State)

/-! ## `setPoly` -/

@[simp] theorem State.setPoly_polys (r : PReg) (v : Poly) :
    (s.setPoly r v).polys = s.polys.set r v := rfl
@[simp] theorem State.setPoly_bmem (r : PReg) (v : Poly) : (s.setPoly r v).bmem = s.bmem := rfl
@[simp] theorem State.setPoly_done (r : PReg) (v : Poly) : (s.setPoly r v).done = s.done := rfl
@[simp] theorem State.setPoly_err (r : PReg) (v : Poly) : (s.setPoly r v).err = s.err := rfl
@[simp] theorem State.setPoly_berr (r : PReg) (v : Poly) : (s.setPoly r v).berr = s.berr := rfl
@[simp] theorem State.setPoly_errcode (r : PReg) (v : Poly) :
    (s.setPoly r v).errcode = s.errcode := rfl
@[simp] theorem State.setPoly_ieDone (r : PReg) (v : Poly) :
    (s.setPoly r v).ieDone = s.ieDone := rfl
@[simp] theorem State.setPoly_ieErr (r : PReg) (v : Poly) : (s.setPoly r v).ieErr = s.ieErr := rfl
@[simp] theorem State.setPoly_ieBerr (r : PReg) (v : Poly) :
    (s.setPoly r v).ieBerr = s.ieBerr := rfl
@[simp] theorem State.setPoly_errcmd (r : PReg) (v : Poly) :
    (s.setPoly r v).errcmd = s.errcmd := rfl
@[simp] theorem State.setPoly_inflight (r : PReg) (v : Poly) :
    (s.setPoly r v).inflight = s.inflight := rfl
@[simp] theorem State.setPoly_rstN (r : PReg) (v : Poly) : (s.setPoly r v).rstN = s.rstN := rfl
@[simp] theorem State.setPoly_response (r : PReg) (v : Poly) :
    (s.setPoly r v).response = s.response := rfl
@[simp] theorem State.setPoly_host (r : PReg) (v : Poly) : (s.setPoly r v).host = s.host := rfl
@[simp] theorem State.setPoly_turns (r : PReg) (v : Poly) : (s.setPoly r v).turns = s.turns := rfl

/-! ## `complete` -/

@[simp] theorem State.complete_polys : (s.complete).polys = s.polys := rfl
@[simp] theorem State.complete_bmem : (s.complete).bmem = s.bmem := rfl
@[simp] theorem State.complete_done : (s.complete).done = true := rfl
@[simp] theorem State.complete_err : (s.complete).err = s.err := rfl
@[simp] theorem State.complete_berr : (s.complete).berr = s.berr := rfl
@[simp] theorem State.complete_errcode : (s.complete).errcode = s.errcode := rfl
@[simp] theorem State.complete_ieDone : (s.complete).ieDone = s.ieDone := rfl
@[simp] theorem State.complete_ieErr : (s.complete).ieErr = s.ieErr := rfl
@[simp] theorem State.complete_ieBerr : (s.complete).ieBerr = s.ieBerr := rfl
@[simp] theorem State.complete_errcmd : (s.complete).errcmd = s.errcmd := rfl
@[simp] theorem State.complete_inflight : (s.complete).inflight = .empty := rfl
@[simp] theorem State.complete_rstN : (s.complete).rstN = s.rstN := rfl
@[simp] theorem State.complete_response : (s.complete).response = s.response := rfl
@[simp] theorem State.complete_host : (s.complete).host = s.host := rfl
@[simp] theorem State.complete_turns : (s.complete).turns = s.turns := rfl

/-! ## `reject` -/

@[simp] theorem State.reject_polys (w : Word) (c : BitVec 4) : (s.reject w c).polys = s.polys := rfl
@[simp] theorem State.reject_bmem (w : Word) (c : BitVec 4) : (s.reject w c).bmem = s.bmem := rfl
@[simp] theorem State.reject_done (w : Word) (c : BitVec 4) : (s.reject w c).done = s.done := rfl
@[simp] theorem State.reject_err (w : Word) (c : BitVec 4) : (s.reject w c).err = true := rfl
@[simp] theorem State.reject_berr (w : Word) (c : BitVec 4) : (s.reject w c).berr = s.berr := rfl
@[simp] theorem State.reject_errcode (w : Word) (c : BitVec 4) : (s.reject w c).errcode = c := rfl
@[simp] theorem State.reject_ieDone (w : Word) (c : BitVec 4) :
    (s.reject w c).ieDone = s.ieDone := rfl
@[simp] theorem State.reject_ieErr (w : Word) (c : BitVec 4) : (s.reject w c).ieErr = s.ieErr := rfl
@[simp] theorem State.reject_ieBerr (w : Word) (c : BitVec 4) :
    (s.reject w c).ieBerr = s.ieBerr := rfl
@[simp] theorem State.reject_errcmd (w : Word) (c : BitVec 4) : (s.reject w c).errcmd = w := rfl
@[simp] theorem State.reject_inflight (w : Word) (c : BitVec 4) :
    (s.reject w c).inflight = s.inflight := rfl
@[simp] theorem State.reject_rstN (w : Word) (c : BitVec 4) : (s.reject w c).rstN = s.rstN := rfl
@[simp] theorem State.reject_response (w : Word) (c : BitVec 4) :
    (s.reject w c).response = s.response := rfl
@[simp] theorem State.reject_host (w : Word) (c : BitVec 4) : (s.reject w c).host = s.host := rfl
@[simp] theorem State.reject_turns (w : Word) (c : BitVec 4) : (s.reject w c).turns = s.turns := rfl

/-! ## `busError` -/

@[simp] theorem State.busError_polys : (s.busError).polys = s.polys := rfl
@[simp] theorem State.busError_bmem : (s.busError).bmem = s.bmem := rfl
@[simp] theorem State.busError_done : (s.busError).done = s.done := rfl
@[simp] theorem State.busError_err : (s.busError).err = s.err := rfl
@[simp] theorem State.busError_berr : (s.busError).berr = true := rfl
@[simp] theorem State.busError_errcode : (s.busError).errcode = s.errcode := rfl
@[simp] theorem State.busError_ieDone : (s.busError).ieDone = s.ieDone := rfl
@[simp] theorem State.busError_ieErr : (s.busError).ieErr = s.ieErr := rfl
@[simp] theorem State.busError_ieBerr : (s.busError).ieBerr = s.ieBerr := rfl
@[simp] theorem State.busError_errcmd : (s.busError).errcmd = s.errcmd := rfl
@[simp] theorem State.busError_inflight : (s.busError).inflight = s.inflight := rfl
@[simp] theorem State.busError_rstN : (s.busError).rstN = s.rstN := rfl
@[simp] theorem State.busError_response : (s.busError).response = s.response := rfl
@[simp] theorem State.busError_host : (s.busError).host = s.host := rfl
@[simp] theorem State.busError_turns : (s.busError).turns = s.turns := rfl

/-! ## `reset` -/

@[simp] theorem State.reset_bmem : State.reset.bmem = [] := rfl
@[simp] theorem State.reset_done : State.reset.done = false := rfl
@[simp] theorem State.reset_err : State.reset.err = false := rfl
@[simp] theorem State.reset_berr : State.reset.berr = false := rfl
@[simp] theorem State.reset_errcode : State.reset.errcode = 0 := rfl
@[simp] theorem State.reset_ieDone : State.reset.ieDone = false := rfl
@[simp] theorem State.reset_ieErr : State.reset.ieErr = false := rfl
@[simp] theorem State.reset_ieBerr : State.reset.ieBerr = false := rfl
@[simp] theorem State.reset_errcmd : State.reset.errcmd = 0 := rfl
@[simp] theorem State.reset_inflight : State.reset.inflight = .clear := rfl
@[simp] theorem State.reset_rstN : State.reset.rstN = true := rfl
@[simp] theorem State.reset_response : State.reset.response = none := rfl
@[simp] theorem State.reset_host : State.reset.host = [] := rfl
@[simp] theorem State.reset_turns : State.reset.turns = [] := rfl

/-- Every polynomial register is zero after reset (10_state.md R37). -/
@[simp] theorem State.reset_poly (r : PReg) : State.reset.poly r = Poly.zero := by cases r <;> rfl

/-! ## `resetCore` -/

@[simp] theorem State.resetCore_polys : (s.resetCore).polys = State.reset.polys := rfl
@[simp] theorem State.resetCore_bmem : (s.resetCore).bmem = State.reset.bmem := rfl
@[simp] theorem State.resetCore_done : (s.resetCore).done = State.reset.done := rfl
@[simp] theorem State.resetCore_err : (s.resetCore).err = State.reset.err := rfl
@[simp] theorem State.resetCore_berr : (s.resetCore).berr = State.reset.berr := rfl
@[simp] theorem State.resetCore_errcode : (s.resetCore).errcode = State.reset.errcode := rfl
@[simp] theorem State.resetCore_ieDone : (s.resetCore).ieDone = State.reset.ieDone := rfl
@[simp] theorem State.resetCore_ieErr : (s.resetCore).ieErr = State.reset.ieErr := rfl
@[simp] theorem State.resetCore_ieBerr : (s.resetCore).ieBerr = State.reset.ieBerr := rfl
@[simp] theorem State.resetCore_errcmd : (s.resetCore).errcmd = State.reset.errcmd := rfl
@[simp] theorem State.resetCore_inflight : (s.resetCore).inflight = State.reset.inflight := rfl
@[simp] theorem State.resetCore_rstN : (s.resetCore).rstN = s.rstN := rfl
@[simp] theorem State.resetCore_response : (s.resetCore).response = s.response := rfl
@[simp] theorem State.resetCore_host : (s.resetCore).host = s.host := rfl
@[simp] theorem State.resetCore_turns : (s.resetCore).turns = s.turns := rfl

/-! ## `writeStatus` -/

@[simp] theorem State.writeStatus_polys (w : Word) : (s.writeStatus w).polys = s.polys := rfl
@[simp] theorem State.writeStatus_bmem (w : Word) : (s.writeStatus w).bmem = s.bmem := rfl
@[simp] theorem State.writeStatus_done (w : Word) :
    (s.writeStatus w).done = (s.done && !w.getLsbD 1) := rfl
@[simp] theorem State.writeStatus_err (w : Word) :
    (s.writeStatus w).err = (s.err && !w.getLsbD 2) := rfl
@[simp] theorem State.writeStatus_berr (w : Word) :
    (s.writeStatus w).berr = (s.berr && !w.getLsbD 3) := rfl
@[simp] theorem State.writeStatus_errcode (w : Word) :
    (s.writeStatus w).errcode = if w.getLsbD 2 then 0 else s.errcode := rfl
@[simp] theorem State.writeStatus_ieDone (w : Word) : (s.writeStatus w).ieDone = s.ieDone := rfl
@[simp] theorem State.writeStatus_ieErr (w : Word) : (s.writeStatus w).ieErr = s.ieErr := rfl
@[simp] theorem State.writeStatus_ieBerr (w : Word) : (s.writeStatus w).ieBerr = s.ieBerr := rfl
@[simp] theorem State.writeStatus_errcmd (w : Word) : (s.writeStatus w).errcmd = s.errcmd := rfl
@[simp] theorem State.writeStatus_inflight (w : Word) :
    (s.writeStatus w).inflight = s.inflight := rfl
@[simp] theorem State.writeStatus_rstN (w : Word) : (s.writeStatus w).rstN = s.rstN := rfl
@[simp] theorem State.writeStatus_response (w : Word) :
    (s.writeStatus w).response = s.response := rfl
@[simp] theorem State.writeStatus_host (w : Word) : (s.writeStatus w).host = s.host := rfl
@[simp] theorem State.writeStatus_turns (w : Word) : (s.writeStatus w).turns = s.turns := rfl

/-! ## `placeCommand` -/

@[simp] theorem State.placeCommand_polys (w : Word) : (s.placeCommand w).polys = s.polys := rfl
@[simp] theorem State.placeCommand_bmem (w : Word) : (s.placeCommand w).bmem = s.bmem := rfl
@[simp] theorem State.placeCommand_done (w : Word) : (s.placeCommand w).done = s.done := rfl
@[simp] theorem State.placeCommand_err (w : Word) : (s.placeCommand w).err = s.err := rfl
@[simp] theorem State.placeCommand_berr (w : Word) : (s.placeCommand w).berr = s.berr := rfl
@[simp] theorem State.placeCommand_errcode (w : Word) :
    (s.placeCommand w).errcode = s.errcode := rfl
@[simp] theorem State.placeCommand_ieDone (w : Word) : (s.placeCommand w).ieDone = s.ieDone := rfl
@[simp] theorem State.placeCommand_ieErr (w : Word) : (s.placeCommand w).ieErr = s.ieErr := rfl
@[simp] theorem State.placeCommand_ieBerr (w : Word) : (s.placeCommand w).ieBerr = s.ieBerr := rfl
@[simp] theorem State.placeCommand_errcmd (w : Word) : (s.placeCommand w).errcmd = s.errcmd := rfl
@[simp] theorem State.placeCommand_inflight (w : Word) :
    (s.placeCommand w).inflight = .command w := rfl
@[simp] theorem State.placeCommand_rstN (w : Word) : (s.placeCommand w).rstN = s.rstN := rfl
@[simp] theorem State.placeCommand_response (w : Word) :
    (s.placeCommand w).response = s.response := rfl
@[simp] theorem State.placeCommand_host (w : Word) : (s.placeCommand w).host = s.host := rfl
@[simp] theorem State.placeCommand_turns (w : Word) :
    (s.placeCommand w).turns = .engine :: s.turns := rfl

end Sys2Proof.Machine
end

