-- ==== Sys2Proof/Laws/Memory.lean ====
section
/-! SUPPORT. BMEM: every operation keeps the canonical form, a write is read back, and nothing else
changes. -/

namespace Sys2Proof.Machine

theorem Memory.nil_wf : Memory.wf [] := by simp [Memory.wf]

/-- A listed cell of a byte string is one of its bytes, inside its range, and not 0. -/
theorem mem_cellsFrom {a : Nat} {bs : List Byte} {c : Host.Cell} (h : c ∈ cellsFrom a bs) :
    a ≤ c.1 ∧ c.1 < a + bs.length ∧ c.2 ≠ 0 := by
  induction bs generalizing a with
  | nil => cases h
  | cons b bs ih =>
    simp only [cellsFrom] at h
    rw [List.length_cons]
    split at h
    · have := ih h; exact ⟨by omega, by omega, this.2.2⟩
    · rcases List.mem_cons.1 h with rfl | h
      · exact ⟨Nat.le_refl a, by omega, ‹_›⟩
      · have := ih h; exact ⟨by omega, by omega, this.2.2⟩

theorem cellsFrom_pairwise (a : Nat) (bs : List Byte) :
    (cellsFrom a bs).Pairwise fun c d => c.1 < d.1 := by
  induction bs generalizing a with
  | nil => exact List.Pairwise.nil
  | cons b bs ih =>
    simp only [cellsFrom]
    split
    · exact ih _
    · exact List.pairwise_cons.2 ⟨fun c hc => by have := mem_cellsFrom hc; simp only; omega, ih _⟩

/-- A write of a byte string inside BMEM keeps the canonical form. -/
theorem Memory.writeBytes_wf {m : Memory} (hm : m.wf) {a : Nat} (bs : List Byte)
    (ha : a + bs.length ≤ bmemSize) : (m.writeBytes a bs).wf := by
  refine ⟨?_, fun c hc => ?_⟩
  · refine List.pairwise_append.2 ⟨List.pairwise_append.2
      ⟨hm.1.filter _, cellsFrom_pairwise a bs, fun c hc d hd => ?_⟩, hm.1.filter _,
      fun c hc d hd => ?_⟩
    · have h1 : c.1 < a := of_decide_eq_true (List.mem_filter.1 hc).2
      have h2 := mem_cellsFrom hd
      omega
    · have h2 : a + bs.length ≤ d.1 := of_decide_eq_true (List.mem_filter.1 hd).2
      rcases List.mem_append.1 hc with hc | hc
      · have h1 : c.1 < a := of_decide_eq_true (List.mem_filter.1 hc).2
        omega
      · have h1 := mem_cellsFrom hc
        omega
  · rcases List.mem_append.1 hc with hc | hc
    · rcases List.mem_append.1 hc with hc | hc
      · exact hm.2 c (List.mem_filter.1 hc).1
      · have := mem_cellsFrom hc
        exact ⟨by omega, this.2.2⟩
    · exact hm.2 c (List.mem_filter.1 hc).1

/-- A write of one byte inside BMEM keeps the canonical form. -/
theorem Memory.write_wf {m : Memory} (hm : m.wf) {a : Nat} (ha : a < bmemSize) (v : Byte) :
    (m.write a v).wf := Memory.writeBytes_wf hm [v] ha

/-- An offset that no cell lists reads 0. -/
theorem Memory.read_eq_zero {m : Memory} {a : Nat} (h : ∀ c ∈ m, c.1 ≠ a) : m.read a = 0 := by
  induction m with
  | nil => rfl
  | cons d m ih =>
    rw [Memory.read, if_neg (h d List.mem_cons_self)]
    exact ih fun c hc => h c (List.mem_cons_of_mem _ hc)

/-- An offset below every listed one reads 0. -/
theorem Memory.read_eq_zero_of_lt {m : Memory} {a : Nat} (h : ∀ c ∈ m, a < c.1) : m.read a = 0 :=
  Memory.read_eq_zero fun c hc => by have := h c hc; omega

/-- Cells in front that do not list the offset do not count. -/
theorem Memory.read_append_right {l : Memory} (r : Memory) {a : Nat} (h : ∀ c ∈ l, c.1 ≠ a) :
    Memory.read (l ++ r) a = r.read a := by
  induction l with
  | nil => rfl
  | cons d l ih =>
    rw [List.cons_append, Memory.read, if_neg (h d List.mem_cons_self)]
    exact ih fun c hc => h c (List.mem_cons_of_mem _ hc)

/-- Cells behind that do not list the offset do not count. -/
theorem Memory.read_append_left (l : Memory) {r : Memory} {a : Nat} (h : ∀ c ∈ r, c.1 ≠ a) :
    Memory.read (l ++ r) a = l.read a := by
  induction l with
  | nil => exact Memory.read_eq_zero h
  | cons d l ih => rw [List.cons_append, Memory.read, Memory.read, ih]

/-- Keeping the cells of an address range keeps what its addresses read. -/
theorem Memory.read_filter (m : Memory) (p : Nat → Bool) {a : Nat} (h : p a = true) :
    Memory.read (m.filter fun c => p c.1) a = m.read a := by
  induction m with
  | nil => rfl
  | cons d m ih =>
    by_cases hd : d.1 = a
    · rw [List.filter_cons_of_pos (by rw [hd]; exact h), Memory.read, Memory.read, if_pos hd,
        if_pos hd]
    · rw [List.filter_cons]
      split
      · rw [Memory.read, Memory.read, if_neg hd, if_neg hd, ih]
      · rw [ih, Memory.read, if_neg hd]

/-- The cells of a byte string read as the string. -/
theorem read_cellsFrom (a : Nat) (bs : List Byte) (i : Nat) :
    (cellsFrom a bs).read (a + i) = bs.getD i 0 := by
  induction bs generalizing a i with
  | nil => rfl
  | cons b bs ih =>
    simp only [cellsFrom]
    cases i with
    | zero =>
      split
      · rename_i hb
        rw [Memory.read_eq_zero_of_lt fun c hc => by have := mem_cellsFrom hc; omega]
        exact hb.symm
      · rw [Memory.read, if_pos (Nat.add_zero a).symm]; rfl
    | succ i =>
      have h := ih (a + 1) i
      rw [show a + 1 + i = a + (i + 1) by omega] at h
      split
      · rw [h]; rfl
      · rw [Memory.read, if_neg (by simp only; omega), h]; rfl

/-- A byte outside the written range reads as before. -/
theorem Memory.read_writeBytes_of_outside (m : Memory) (a : Nat) (bs : List Byte) {b : Nat}
    (h : b < a ∨ a + bs.length ≤ b) : (m.writeBytes a bs).read b = m.read b := by
  rcases h with h | h
  · rw [Memory.writeBytes, List.append_assoc, Memory.read_append_left,
      Memory.read_filter m (fun x => x < a) (by simpa using h)]
    intro c hc
    rcases List.mem_append.1 hc with hc | hc
    · have := mem_cellsFrom hc; omega
    · have : a + bs.length ≤ c.1 := of_decide_eq_true (List.mem_filter.1 hc).2
      omega
  · rw [Memory.writeBytes, Memory.read_append_right,
      Memory.read_filter m (fun x => a + bs.length ≤ x) (by simpa using h)]
    intro c hc
    rcases List.mem_append.1 hc with hc | hc
    · have : c.1 < a := of_decide_eq_true (List.mem_filter.1 hc).2
      omega
    · have := mem_cellsFrom hc; omega

/-- Byte i of the written range reads byte i of the string. -/
theorem Memory.read_writeBytes_inside (m : Memory) (a : Nat) (bs : List Byte) {i : Nat}
    (hi : i < bs.length) : (m.writeBytes a bs).read (a + i) = bs.getD i 0 := by
  rw [Memory.writeBytes, Memory.read_append_left, Memory.read_append_right, read_cellsFrom]
  · intro c hc
    have : c.1 < a := of_decide_eq_true (List.mem_filter.1 hc).2
    omega
  · intro c hc
    have : a + bs.length ≤ c.1 := of_decide_eq_true (List.mem_filter.1 hc).2
    omega

theorem Memory.read_write_self (m : Memory) (a : Nat) (v : Byte) : (m.write a v).read a = v := by
  simpa [Memory.write] using Memory.read_writeBytes_inside m a [v] (i := 0) (by simp)

theorem Memory.read_write_ne (m : Memory) {a b : Nat} (v : Byte) (h : b ≠ a) :
    (m.write a v).read b = m.read b :=
  Memory.read_writeBytes_of_outside m a [v] (by simp only [List.length_singleton]; omega)

@[simp] theorem Memory.readBytes_length (m : Memory) (a n : Nat) : (m.readBytes a n).length = n := by
  rw [Memory.readBytes, List.length_map, List.length_range]

theorem Memory.readBytes_getD (m : Memory) (a : Nat) {n i : Nat} (h : i < n) :
    (m.readBytes a n).getD i 0 = m.read (a + i) := by
  have hi : i < (List.range n).length := by simpa using h
  simp [Memory.readBytes, List.getD_eq_getElem?_getD, List.getElem?_map,
    List.getElem?_eq_getElem hi]

/-- Two memories in canonical form that read alike are equal data. -/
theorem Memory.ext_read {m n : Memory} (hm : m.wf) (hn : n.wf)
    (h : ∀ a, m.read a = n.read a) : m = n := by
  have key : ∀ {p : Memory} {c : Host.Cell}, Memory.wf (c :: p) → Memory.read (c :: p) c.1 = c.2 := by
    intro p c _; simp [Memory.read]
  induction m generalizing n with
  | nil =>
    cases n with
    | nil => rfl
    | cons d n =>
      have := h d.1
      rw [key hn] at this
      exact absurd this.symm (hn.2 d List.mem_cons_self).2
  | cons c m ih =>
    cases n with
    | nil =>
      have := h c.1
      rw [key hm] at this
      exact absurd this (hm.2 c List.mem_cons_self).2
    | cons d n =>
      obtain ⟨hc, hm'⟩ := List.pairwise_cons.1 hm.1
      obtain ⟨hd, hn'⟩ := List.pairwise_cons.1 hn.1
      have hcd : c.1 = d.1 := by
        rcases Nat.lt_trichotomy c.1 d.1 with hlt | heq | hgt
        · have h1 := h c.1
          rw [key hm, Memory.read_eq_zero_of_lt (m := d :: n) fun e he => ?_] at h1
          · exact absurd h1 (hm.2 c List.mem_cons_self).2
          · rcases List.mem_cons.1 he with rfl | he
            · exact hlt
            · exact Nat.lt_trans hlt (hd e he)
        · exact heq
        · have h1 := h d.1
          rw [key hn, Memory.read_eq_zero_of_lt (m := c :: m) fun e he => ?_] at h1
          · exact absurd h1.symm (hn.2 d List.mem_cons_self).2
          · rcases List.mem_cons.1 he with rfl | he
            · exact hgt
            · exact Nat.lt_trans hgt (hc e he)
      have hv : c.2 = d.2 := by
        have h1 := h c.1
        rw [key hm, hcd, key hn] at h1
        exact h1
      have hrest : m = n := by
        refine ih ⟨hm', fun e he => hm.2 e (List.mem_cons_of_mem _ he)⟩
          ⟨hn', fun e he => hn.2 e (List.mem_cons_of_mem _ he)⟩ fun a => ?_
        by_cases ha : c.1 = a
        · rw [Memory.read_eq_zero_of_lt fun e he => ha ▸ hc e he,
            Memory.read_eq_zero_of_lt fun e he => (hcd.symm.trans ha) ▸ hd e he]
        · have h1 := h a
          simpa only [Memory.read, if_neg ha, if_neg (hcd ▸ ha)] using h1
      obtain ⟨c1, c2⟩ := c
      obtain ⟨d1, d2⟩ := d
      simp only at hcd hv
      rw [hcd, hv, hrest]

end Sys2Proof.Machine
end

