-- ==== Sys2Proof/Laws/Poly.lean ====
section
/-! SUPPORT. The polynomial operations: tabulating, reading and setting coefficients, and the
register file. -/

namespace Sys2Proof.Machine

/-- A stored coefficient fits 16 bits (00_scope.md R5). -/
theorem Poly.coeff_lt (v : Poly) (k : Nat) : v.coeff k < 65536 := (v.coeffs.getD k 0).isLt

theorem Poly.coeff_of_ge (v : Poly) {k : Nat} (h : N ≤ k) : v.coeff k = 0 := by
  have hk : v.coeffs.length ≤ k := by rw [v.size_eq]; exact h
  simp [Poly.coeff, List.getD_eq_getElem?_getD, List.getElem?_eq_none hk]

/-- Tabulating narrows each value to 16 bits. -/
theorem Poly.coeff_tab_mod (f : Nat → Nat) {k : Nat} (h : k < N) :
    (Poly.tab f).coeff k = f k % 65536 := by
  have hk : k < (List.range N).length := by simpa using h
  simp only [Poly.coeff, Poly.tab, List.getD_eq_getElem?_getD, List.getElem?_map,
    List.getElem?_eq_getElem hk, List.getElem_range, Option.map_some, Option.getD_some]
  exact BitVec.toNat_ofNat _ _

/-- A value that fits 16 bits is stored exactly. -/
theorem Poly.coeff_tab (f : Nat → Nat) {k : Nat} (h : k < N) (hf : f k < 65536) :
    (Poly.tab f).coeff k = f k := by
  rw [Poly.coeff_tab_mod f h, Nat.mod_eq_of_lt hf]

/-- Two register contents with the same coefficients are the same content. -/
theorem Poly.ext_coeff {u v : Poly} (h : ∀ k, k < N → u.coeff k = v.coeff k) : u = v := by
  have hc : u.coeffs = v.coeffs := by
    apply List.ext_getElem (by rw [u.size_eq, v.size_eq])
    intro k hu hv
    have := h k (u.size_eq ▸ hu)
    simp only [Poly.coeff, List.getD_eq_getElem?_getD, List.getElem?_eq_getElem hu,
      List.getElem?_eq_getElem hv, Option.getD_some] at this
    exact BitVec.eq_of_toNat_eq this
  cases u; cases v; cases hc; rfl

theorem Poly.coeff_zero (k : Nat) : Poly.zero.coeff k = 0 := by
  unfold Poly.coeff Poly.zero
  rw [List.getD_eq_getElem?_getD, List.getElem?_replicate]
  split <;> rfl

theorem Poly.coeff_set_self (v : Poly) {k : Nat} (c : Coeff) (h : k < N) :
    (v.set k c).coeff k = c.toNat := by
  have hk : k < v.coeffs.length := by rw [v.size_eq]; exact h
  simp [Poly.coeff, Poly.set, List.getD_eq_getElem?_getD, List.getElem?_set_self hk]

theorem Poly.coeff_set_ne (v : Poly) {k j : Nat} (c : Coeff) (h : j ≠ k) :
    (v.set k c).coeff j = v.coeff j := by
  simp [Poly.coeff, Poly.set, List.getD_eq_getElem?_getD, List.getElem?_set_ne (Ne.symm h)]

theorem Poly.residues_length (v : Poly) : v.residues.length = N := by
  rw [Poly.residues, List.length_map, v.size_eq]

/-- Residue k of a content is its coefficient mod Q. -/
theorem Poly.residues_getD (v : Poly) (k : Nat) : v.residues.getD k 0 = v.coeff k % Q := by
  simp only [Poly.residues, Poly.coeff, List.getD_eq_getElem?_getD, List.getElem?_map]
  cases v.coeffs[k]? <;> simp

theorem PolyFile.get_set_self (f : PolyFile) (r : PReg) (v : Poly) : (f.set r v).get r = v := by
  cases r <;> rfl

theorem PolyFile.get_set_ne (f : PolyFile) {r q : PReg} (v : Poly) (h : q ≠ r) :
    (f.set r v).get q = f.get q := by
  cases r <;> cases q <;> first | rfl | exact absurd rfl h

/-- The register written reads the value written. -/
theorem State.poly_setPoly_self (s : State) (r : PReg) (v : Poly) : (s.setPoly r v).poly r = v :=
  PolyFile.get_set_self s.polys r v

/-- Every other register reads as before. -/
theorem State.poly_setPoly_ne (s : State) {r q : PReg} (v : Poly) (h : q ≠ r) :
    (s.setPoly r v).poly q = s.poly q :=
  PolyFile.get_set_ne s.polys v h

@[simp] theorem State.poly_complete (s : State) (r : PReg) : s.complete.poly r = s.poly r := rfl

/-- A write over a write of the same register keeps only the later one. -/
theorem PolyFile.set_set (f : PolyFile) (r : PReg) (u v : Poly) : (f.set r u).set r v = f.set r v := by
  cases r <;> rfl

end Sys2Proof.Machine
end

