-- ==== Sys2Proof/Laws/Ops.lean ====
section
/-! SUPPORT. One lemma per shared operation that says all it can do, and one for `exec`: what a
completion of any command can do. -/

namespace Sys2Proof.Machine

/-- `putPoly` always completes. -/
theorem putPoly_eq_next {rd : PReg} {v : Poly} {s t : State} (h : putPoly rd v s = .next t) :
    t = (s.setPoly rd v).complete := (Host.Outcome.next.inj h).symm

/-- `withBytes` runs its continuation on the bytes of a range inside BMEM, else faults. -/
theorem withBytes_of_le {o : BOff} {n : Nat} (h : o.toNat + n ≤ bmemSize) (s : State)
    (go : List Byte → Result) : withBytes o n s go = go (s.bmem.readBytes o.toNat n) := if_pos h

theorem withBytes_of_gt {o : BOff} {n : Nat} (h : bmemSize < o.toNat + n) (s : State)
    (go : List Byte → Result) : withBytes o n s go = .fault .bmemRange := if_neg (by omega)

theorem putBytes_of_le {o : BOff} {bs : List Byte} (h : o.toNat + bs.length ≤ bmemSize) (s : State) :
    putBytes o bs s = .next { s with bmem := s.bmem.writeBytes o.toNat bs }.complete := if_pos h

theorem putBytes_of_gt {o : BOff} {bs : List Byte} (h : bmemSize < o.toNat + bs.length) (s : State) :
    putBytes o bs s = .fault .bmemRange := if_neg (by omega)

/-- A completion writes polynomial registers and BMEM, keeps BMEM canonical, and ends the command;
it changes nothing else (60_exceptions.md R254). -/
theorem exec_eq_next {i : Instr} {s t : State} (h : exec i s = .next t) :
    ∃ p m, t = State.complete { s with polys := p, bmem := m } ∧ (s.bmem.wf → Memory.wf m) := by
  have poly : ∀ {rd v}, putPoly rd v s = .next t →
      ∃ p m, t = State.complete { s with polys := p, bmem := m } ∧ (s.bmem.wf → Memory.wf m) :=
    fun {rd v} h => ⟨s.polys.set rd v, s.bmem, putPoly_eq_next h, id⟩
  have rng : ∀ {o : BOff} {n : Nat} {go : List Byte → PReg × Poly},
      withBytes o n s (fun y => putPoly (go y).1 (go y).2 s) = .next t →
      ∃ p m, t = State.complete { s with polys := p, bmem := m } ∧ (s.bmem.wf → Memory.wf m) := by
    intro o n go h
    unfold withBytes at h
    split at h
    · exact poly h
    · cases h
  have wr : ∀ {o : BOff} {bs : List Byte}, putBytes o bs s = .next t →
      ∃ p m, t = State.complete { s with polys := p, bmem := m } ∧ (s.bmem.wf → Memory.wf m) := by
    intro o bs h
    unfold putBytes at h
    split at h
    · exact ⟨s.polys, _, (Host.Outcome.next.inj h).symm, fun hm => Memory.writeBytes_wf hm bs ‹_›⟩
    · cases h
  cases i with
  | nop => exact ⟨s.polys, s.bmem, (Host.Outcome.next.inj h).symm, id⟩
  | bzero => exact ⟨s.polys, [], (Host.Outcome.next.inj h).symm, fun _ => Memory.nil_wf⟩
  | pzero rd => exact poly h
  | pcopy rd rs1 => exact poly h
  | preduce rd rs1 => exact poly h
  | pfreeze rd rs1 => exact poly h
  | pflipabs rd rs1 => exact poly h
  | padd rd rs1 rs2 => exact poly h
  | psub rd rs1 rs2 => exact poly h
  | pmul rd rs1 rs2 => exact poly h
  | ntt rd rs1 => exact poly h
  | intt rd rs1 => exact poly h
  | noise rd o => exact rng (o := o) (n := 4096) (go := fun y => (rd, Poly.tab (noiseCoeff y))) h
  | helprec rd rs1 o => exact rng (o := o) (n := 32) (go := fun y => (rd, Poly.tab (helpCoeff (s.poly rs1) y))) h
  | reconcile rs1 rs2 o => exact wr h
  | hpack rs1 o => exact wr h
  | hunpack rd o => exact rng (o := o) (n := 256) (go := fun y => (rd, Poly.tab (unpackCoeff y))) h

/-- A command whose byte range fits BMEM completes (60_exceptions.md R254). -/
theorem exec_completes {i : Instr} (h : wellFormed i = true) (s : State) :
    ∃ t, exec i s = .next t := by
  have hr : i.boff.toNat + i.byteCount ≤ bmemSize := (wellFormed_iff i).1 h
  cases i with
  | noise rd o =>
    exact ⟨_, withBytes_of_le (o := o) (n := 4096) hr s fun y => putPoly rd (Poly.tab (noiseCoeff y)) s⟩
  | helprec rd rs1 o =>
    exact ⟨_, withBytes_of_le (o := o) (n := 32) hr s fun r =>
      putPoly rd (Poly.tab (helpCoeff (s.poly rs1) r)) s⟩
  | hunpack rd o =>
    exact ⟨_, withBytes_of_le (o := o) (n := 256) hr s fun y => putPoly rd (Poly.tab (unpackCoeff y)) s⟩
  | reconcile rs1 rs2 o =>
    refine ⟨_, putBytes_of_le (o := o) ?_ s⟩
    rw [List.length_map, List.length_range]; exact hr
  | hpack rs1 o =>
    refine ⟨_, putBytes_of_le (o := o) ?_ s⟩
    rw [packBytes, List.length_map, List.length_range]; exact hr
  | nop => exact ⟨_, rfl⟩
  | bzero => exact ⟨_, rfl⟩
  | pzero rd => exact ⟨_, rfl⟩
  | pcopy rd rs1 => exact ⟨_, rfl⟩
  | preduce rd rs1 => exact ⟨_, rfl⟩
  | pfreeze rd rs1 => exact ⟨_, rfl⟩
  | pflipabs rd rs1 => exact ⟨_, rfl⟩
  | padd rd rs1 rs2 => exact ⟨_, rfl⟩
  | psub rd rs1 rs2 => exact ⟨_, rfl⟩
  | pmul rd rs1 rs2 => exact ⟨_, rfl⟩
  | ntt rd rs1 => exact ⟨_, rfl⟩
  | intt rd rs1 => exact ⟨_, rfl⟩

/-- The four things a submitted word can do (60_exceptions.md R252). -/
theorem submit_cases (s : State) (w : Word) :
    s.submit w = s ∧ s.err = true ∨
    s.submit w = s.reject w 5 ∧ s.err = false ∧ s.busy = true ∨
    s.submit w = s.reject w (check w) ∧ s.err = false ∧ s.busy = false ∧ check w ≠ 0 ∨
    s.submit w = { s with inflight := .command w, done := false } ∧ s.err = false ∧
      s.busy = false ∧ check w = 0 := by
  unfold State.submit
  split_ifs <;> simp_all

/-- CHECK reports no code but 0, 1, 2 and 3 (60_exceptions.md R256). -/
theorem check_cases (w : Word) : check w = 0 ∨ check w = 1 ∨ check w = 2 ∨ check w = 3 := by
  unfold check
  split
  · simp
  · split_ifs <;> simp

end Sys2Proof.Machine
end

