-- ==== Sys2Proof/Laws/PerInstr.lean ====
section
/-! SUPPORT. What every command's word has in its fixed fields, one lemma per constructor: the
opcode it stands under in the opcode map, RSVD 0, and the byte offset of its operand. -/

namespace Sys2Proof.Laws.EncodedFields

/-- The word of `i` has `i`'s opcode, RSVD = 0 and `i`'s BOFF (30_encoding.md R91, R93 to R96). -/
def Statement (i : Instr) : Prop :=
  opcField (encode i) = i.opc ∧ rsvdField (encode i) = 0 ∧ boffField (encode i) = i.boff

theorem nop : Statement .nop := ⟨by simp [encode, Instr.opc], by simp [encode], by simp [encode, Instr.boff]⟩
theorem pzero (rd : PReg) : Statement (.pzero rd) :=
  ⟨by simp [encode, Instr.opc], by simp [encode], by simp [encode, Instr.boff]⟩
theorem pcopy (rd rs1 : PReg) : Statement (.pcopy rd rs1) :=
  ⟨by simp [encode, Instr.opc], by simp [encode], by simp [encode, Instr.boff]⟩
theorem bzero : Statement .bzero :=
  ⟨by simp [encode, Instr.opc], by simp [encode], by simp [encode, Instr.boff]⟩
theorem preduce (rd rs1 : PReg) : Statement (.preduce rd rs1) :=
  ⟨by simp [encode, Instr.opc], by simp [encode], by simp [encode, Instr.boff]⟩
theorem pfreeze (rd rs1 : PReg) : Statement (.pfreeze rd rs1) :=
  ⟨by simp [encode, Instr.opc], by simp [encode], by simp [encode, Instr.boff]⟩
theorem pflipabs (rd rs1 : PReg) : Statement (.pflipabs rd rs1) :=
  ⟨by simp [encode, Instr.opc], by simp [encode], by simp [encode, Instr.boff]⟩
theorem padd (rd rs1 rs2 : PReg) : Statement (.padd rd rs1 rs2) :=
  ⟨by simp [encode, Instr.opc], by simp [encode], by simp [encode, Instr.boff]⟩
theorem psub (rd rs1 rs2 : PReg) : Statement (.psub rd rs1 rs2) :=
  ⟨by simp [encode, Instr.opc], by simp [encode], by simp [encode, Instr.boff]⟩
theorem pmul (rd rs1 rs2 : PReg) : Statement (.pmul rd rs1 rs2) :=
  ⟨by simp [encode, Instr.opc], by simp [encode], by simp [encode, Instr.boff]⟩
theorem ntt (rd rs1 : PReg) : Statement (.ntt rd rs1) :=
  ⟨by simp [encode, Instr.opc], by simp [encode], by simp [encode, Instr.boff]⟩
theorem intt (rd rs1 : PReg) : Statement (.intt rd rs1) :=
  ⟨by simp [encode, Instr.opc], by simp [encode], by simp [encode, Instr.boff]⟩
theorem noise (rd : PReg) (boff : BOff) : Statement (.noise rd boff) :=
  ⟨by simp [encode, Instr.opc], by simp [encode], by simp [encode, Instr.boff]⟩
theorem helprec (rd rs1 : PReg) (boff : BOff) : Statement (.helprec rd rs1 boff) :=
  ⟨by simp [encode, Instr.opc], by simp [encode], by simp [encode, Instr.boff]⟩
theorem reconcile (rs1 rs2 : PReg) (boff : BOff) : Statement (.reconcile rs1 rs2 boff) :=
  ⟨by simp [encode, Instr.opc], by simp [encode], by simp [encode, Instr.boff]⟩
theorem hpack (rs1 : PReg) (boff : BOff) : Statement (.hpack rs1 boff) :=
  ⟨by simp [encode, Instr.opc], by simp [encode], by simp [encode, Instr.boff]⟩
theorem hunpack (rd : PReg) (boff : BOff) : Statement (.hunpack rd boff) :=
  ⟨by simp [encode, Instr.opc], by simp [encode], by simp [encode, Instr.boff]⟩

end Sys2Proof.Laws.EncodedFields
end

