-- ==== Sys2Proof/Laws/Port.lean ====
section
/-! SUPPORT. The bus port: the byte strings it moves, and all that an admitted or refused write can
do to the state. -/

namespace Sys2Proof.Machine

@[simp] theorem wordBytes_length (v : Word) (n : Nat) : (wordBytes v n).length = n := by
  rw [wordBytes, List.length_map, List.length_range]

theorem wordBytes_getD (v : Word) {n i : Nat} (h : i < n) :
    (wordBytes v n).getD i 0 = v.extractLsb' (8 * i) 8 := by
  have hi : i < (List.range n).length := by simpa using h
  simp [wordBytes, List.getD_eq_getElem?_getD, List.getElem?_map, List.getElem?_eq_getElem hi]

/-- What the address decoder can answer, and where (20_memory.md R62 to R69). -/
theorem route_cases {busy : Bool} {off : Offset} {size : Size} {t : Target}
    (h : route busy off size = some t) :
    off.toNat % size.bytes = 0 ∧
    (off.toNat < 0x18 ∧ size = .b4 ∧ (∃ r, t = .ctrl r ∧ ctrlRegAt off.toNat = some r) ∨
     busy = false ∧ 0x2000 ≤ off.toNat ∧ off.toNat < 0x4000 ∧ t = .bmem (off.toNat % 0x2000) ∨
     busy = false ∧ 0x4000 ≤ off.toNat ∧ size ≠ .b1 ∧
      t = .poly (PReg.ofIndex (off.toNat / 0x800)) (off.toNat / 2 % N)) := by
  unfold route at h
  simp only at h
  split_ifs at h with h1 h2 h3 h4 h5 h6 h7
  · obtain ⟨r, hr, rfl⟩ := Option.map_eq_some_iff.1 h
    exact ⟨not_not.1 h1, .inl ⟨h2, h3, r, rfl, hr⟩⟩
  · refine ⟨not_not.1 h1, .inr (.inl ⟨Bool.eq_false_iff.2 h5, by omega, h6, ?_⟩)⟩
    exact (Option.some.inj h).symm
  · refine ⟨not_not.1 h1, .inr (.inr ⟨Bool.eq_false_iff.2 h5, by omega, h7, ?_⟩)⟩
    exact (Option.some.inj h).symm

/-- An admitted transfer to BMEM stays inside it: it is aligned. -/
theorem bmem_range {off : Offset} {size : Size} (h : off.toNat % size.bytes = 0) :
    off.toNat % 0x2000 + size.bytes ≤ bmemSize := by
  cases size <;> simp only [Size.bytes, bmemSize] at * <;> omega

/-- All that a write access can do: a bus error, or the effect of its target. -/
theorem busWrite_cases (off : Offset) (size : Size) (w : Word) (s : State) :
    route s.busy off size = none ∧
        busWrite off size w s = { s.busError with response := some .writeError } ∨
      ∃ t, route s.busy off size = some t ∧
        busWrite off size w s = { s.writeTarget size w t with response := some .writeDone } := by
  unfold busWrite
  cases route s.busy off size with
  | none => exact .inl ⟨rfl, rfl⟩
  | some t => exact .inr ⟨t, rfl, rfl⟩

/-- All that a read access can do: a bus error, or the data of its target. -/
theorem busRead_cases (off : Offset) (size : Size) (s : State) :
    route s.busy off size = none ∧
        busRead off size s = { s.busError with response := some .readError } ∨
      ∃ t, route s.busy off size = some t ∧
        busRead off size s = { s with response := some (.readData (s.readTarget size t)) } := by
  unfold busRead
  cases route s.busy off size with
  | none => exact .inl ⟨rfl, rfl⟩
  | some t => exact .inr ⟨t, rfl, rfl⟩

/-- The reading of STATUS that a WAIT makes is always admitted (20_memory.md R66, R68). -/
theorem route_status (busy : Bool) : route busy 0x00C .b4 = some (.ctrl .status) := by
  cases busy <;> rfl

/-- The offset of each control register (10_state.md section 4). -/
theorem ctrlRegAt_eq_some {off : Offset} {r : CtrlReg} (h : ctrlRegAt off.toNat = some r) :
    off = match r with
      | .id => 0x000
      | .cfg => 0x004
      | .cmd => 0x008
      | .status => 0x00C
      | .ctrl => 0x010
      | .errcmd => 0x014 := by
  apply BitVec.eq_of_toNat_eq
  unfold ctrlRegAt at h
  split at h <;> cases h <;> assumption

/-! What a write to BMEM or to a register leaves in each other field. Rewrite with these: unfolding
the write at the offsets of `route` makes the kernel evaluate their quotients. -/

variable (s : State) (size : Size) (w : Word)

@[simp] theorem State.writeTarget_bmem_polys (a : Nat) :
    (s.writeTarget size w (.bmem a)).polys = s.polys := rfl
@[simp] theorem State.writeTarget_bmem_bmem (a : Nat) :
    (s.writeTarget size w (.bmem a)).bmem = s.bmem.writeBytes a (wordBytes w size.bytes) := rfl
@[simp] theorem State.writeTarget_poly_bmem (r : PReg) (k : Nat) :
    (s.writeTarget size w (.poly r k)).bmem = s.bmem := rfl
@[simp] theorem State.writeTarget_bmem_done (a : Nat) :
    (s.writeTarget size w (.bmem a)).done = s.done := rfl
@[simp] theorem State.writeTarget_poly_done (r : PReg) (k : Nat) :
    (s.writeTarget size w (.poly r k)).done = s.done := rfl
@[simp] theorem State.writeTarget_bmem_err (a : Nat) :
    (s.writeTarget size w (.bmem a)).err = s.err := rfl
@[simp] theorem State.writeTarget_poly_err (r : PReg) (k : Nat) :
    (s.writeTarget size w (.poly r k)).err = s.err := rfl
@[simp] theorem State.writeTarget_bmem_berr (a : Nat) :
    (s.writeTarget size w (.bmem a)).berr = s.berr := rfl
@[simp] theorem State.writeTarget_poly_berr (r : PReg) (k : Nat) :
    (s.writeTarget size w (.poly r k)).berr = s.berr := rfl
@[simp] theorem State.writeTarget_bmem_errcode (a : Nat) :
    (s.writeTarget size w (.bmem a)).errcode = s.errcode := rfl
@[simp] theorem State.writeTarget_poly_errcode (r : PReg) (k : Nat) :
    (s.writeTarget size w (.poly r k)).errcode = s.errcode := rfl
@[simp] theorem State.writeTarget_bmem_ieDone (a : Nat) :
    (s.writeTarget size w (.bmem a)).ieDone = s.ieDone := rfl
@[simp] theorem State.writeTarget_poly_ieDone (r : PReg) (k : Nat) :
    (s.writeTarget size w (.poly r k)).ieDone = s.ieDone := rfl
@[simp] theorem State.writeTarget_bmem_ieErr (a : Nat) :
    (s.writeTarget size w (.bmem a)).ieErr = s.ieErr := rfl
@[simp] theorem State.writeTarget_poly_ieErr (r : PReg) (k : Nat) :
    (s.writeTarget size w (.poly r k)).ieErr = s.ieErr := rfl
@[simp] theorem State.writeTarget_bmem_ieBerr (a : Nat) :
    (s.writeTarget size w (.bmem a)).ieBerr = s.ieBerr := rfl
@[simp] theorem State.writeTarget_poly_ieBerr (r : PReg) (k : Nat) :
    (s.writeTarget size w (.poly r k)).ieBerr = s.ieBerr := rfl
@[simp] theorem State.writeTarget_bmem_errcmd (a : Nat) :
    (s.writeTarget size w (.bmem a)).errcmd = s.errcmd := rfl
@[simp] theorem State.writeTarget_poly_errcmd (r : PReg) (k : Nat) :
    (s.writeTarget size w (.poly r k)).errcmd = s.errcmd := rfl
@[simp] theorem State.writeTarget_bmem_inflight (a : Nat) :
    (s.writeTarget size w (.bmem a)).inflight = s.inflight := rfl
@[simp] theorem State.writeTarget_poly_inflight (r : PReg) (k : Nat) :
    (s.writeTarget size w (.poly r k)).inflight = s.inflight := rfl
@[simp] theorem State.writeTarget_bmem_rstN (a : Nat) :
    (s.writeTarget size w (.bmem a)).rstN = s.rstN := rfl
@[simp] theorem State.writeTarget_poly_rstN (r : PReg) (k : Nat) :
    (s.writeTarget size w (.poly r k)).rstN = s.rstN := rfl
@[simp] theorem State.writeTarget_bmem_response (a : Nat) :
    (s.writeTarget size w (.bmem a)).response = s.response := rfl
@[simp] theorem State.writeTarget_poly_response (r : PReg) (k : Nat) :
    (s.writeTarget size w (.poly r k)).response = s.response := rfl
@[simp] theorem State.writeTarget_bmem_host (a : Nat) :
    (s.writeTarget size w (.bmem a)).host = s.host := rfl
@[simp] theorem State.writeTarget_poly_host (r : PReg) (k : Nat) :
    (s.writeTarget size w (.poly r k)).host = s.host := rfl
@[simp] theorem State.writeTarget_bmem_turns (a : Nat) :
    (s.writeTarget size w (.bmem a)).turns = s.turns := rfl
@[simp] theorem State.writeTarget_poly_turns (r : PReg) (k : Nat) :
    (s.writeTarget size w (.poly r k)).turns = s.turns := rfl

end Sys2Proof.Machine
end

