-- ==== Sys2Proof/Laws/Step.lean ====
section
/-! SUPPORT. What a step can do, said once: whose turn it is, and what that agent's turn does. -/

namespace Sys2Proof.Machine

open Safety

/-- A step is the turn of the agent that `turns` names, or of the engine while BUSY = 1 and of the
host otherwise when it names none. -/
theorem step_eq (s : State) :
    (∃ ts, s.turns = .engine :: ts ∧ step s = engineTurn { s with turns := ts }) ∨
    (∃ ts, s.turns = .host :: ts ∧ step s = hostTurn { s with turns := ts }) ∨
    (s.turns = [] ∧ s.busy = true ∧ step s = engineTurn s) ∨
    (s.turns = [] ∧ s.busy = false ∧ step s = hostTurn s) := by
  unfold step
  rcases s.turns with _ | ⟨a, ts⟩
  · cases hb : s.busy <;> simp
  · cases a
    · exact .inr (.inl ⟨ts, rfl, rfl⟩)
    · exact .inl ⟨ts, rfl, rfl⟩

/-- The three completions of an engine turn that answers a next state. -/
theorem engineTurn_eq_next {s t : State} (h : engineTurn s = .next t) :
    (s.inflight = .empty ∧ t = s) ∨
    (s.inflight = .clear ∧ t = { s with inflight := .empty }) ∨
    (∃ w i, s.inflight = .command w ∧ decode w = .ok i ∧ exec i s = .next t) := by
  unfold engineTurn at h
  split at h
  · exact .inl ⟨‹_›, (Host.Outcome.next.inj h).symm⟩
  · exact .inr (.inl ⟨‹_›, (Host.Outcome.next.inj h).symm⟩)
  · split at h
    · exact .inr (.inr ⟨_, _, ‹_›, ‹_›, h⟩)
    · cases h

/-- What the host's next action does when it answers a next state. -/
theorem hostAct_eq_next {a : HostAction} {rest : List HostAction} {s t : State}
    (h : hostAct a rest s = .next t) :
    (∃ level, a = .resetPin level ∧ t = driveResetPin level { s with host := rest }) ∨
    (s.rstN = true ∧ ∃ off size, a = .read off size ∧ t = busRead off size { s with host := rest }) ∨
    (s.rstN = true ∧ ∃ off size w, a = .write off size w ∧
      t = busWrite off size w { s with host := rest }) ∨
    (s.rstN = true ∧ a = .wait ∧
      t = busRead 0x00C .b4 { s with host := if s.busy then .wait :: rest else rest }) := by
  cases a with
  | resetPin level => exact .inl ⟨level, rfl, (Host.Outcome.next.inj h).symm⟩
  | read off size =>
    simp only [hostAct] at h
    split at h
    · exact .inr (.inl ⟨‹_›, off, size, rfl, (Host.Outcome.next.inj h).symm⟩)
    · cases h
  | write off size w =>
    simp only [hostAct] at h
    split at h
    · exact .inr (.inr (.inl ⟨‹_›, off, size, w, rfl, (Host.Outcome.next.inj h).symm⟩))
    · cases h
  | wait =>
    simp only [hostAct] at h
    split at h
    · exact .inr (.inr (.inr ⟨‹_›, rfl, (Host.Outcome.next.inj h).symm⟩))
    · cases h

/-- A host turn changes nothing when no action is left, and is its next action's otherwise. -/
theorem hostTurn_cases (s : State) :
    (s.host = [] ∧ hostTurn s = .next s) ∨
    (∃ a rest, s.host = a :: rest ∧ hostTurn s = hostAct a rest s) := by
  unfold hostTurn
  rcases s.host with _ | ⟨a, rest⟩
  · exact .inl ⟨rfl, rfl⟩
  · exact .inr ⟨a, rest, rfl, rfl⟩

/-- All that a step answering a next state can be. -/
theorem step_eq_next {s t : State} (h : step s = .next t) :
    (∃ r, EngineMoves s r ∧ (r.inflight = .clear ∧ t = { r with inflight := .empty } ∨
      ∃ w i, r.inflight = .command w ∧ decode w = .ok i ∧ exec i r = .next t)) ∨
    (∃ a r, HostMoves s a r ∧ hostAct a r.host { r with host := a :: r.host } = .next t) ∨
    (t = { s with turns := t.turns }) := by
  rcases step_eq s with ⟨ts, h1, h2⟩ | ⟨ts, h1, h2⟩ | ⟨h1, hb, h2⟩ | ⟨h1, hb, h2⟩
  · rcases engineTurn_eq_next (h2 ▸ h) with ⟨h3, h4⟩ | h3 | h3
    · exact .inr (.inr (by subst h4; rfl))
    · exact .inl ⟨{ s with turns := ts }, ⟨.inl h1, rfl⟩, .inl h3⟩
    · exact .inl ⟨{ s with turns := ts }, ⟨.inl h1, rfl⟩, .inr h3⟩
  · rcases hostTurn_cases { s with turns := ts } with ⟨h3, h4⟩ | ⟨a, rest, h3, h4⟩
    · refine .inr (.inr ?_)
      rw [h2, h4] at h; rw [← Host.Outcome.next.inj h]
    · refine .inr (.inl ⟨a, { s with turns := ts, host := rest }, ⟨.inl h1, h3, rfl⟩, ?_⟩)
      rw [h2, h4] at h
      rw [← h]; simp only at h3; simp only [← h3]
  · rcases engineTurn_eq_next (h2 ▸ h) with ⟨h3, h4⟩ | h3 | h3
    · simp [State.busy, h3] at hb
    · exact .inl ⟨s, ⟨.inr ⟨h1, h1, hb⟩, rfl⟩, .inl h3⟩
    · exact .inl ⟨s, ⟨.inr ⟨h1, h1, hb⟩, rfl⟩, .inr h3⟩
  · rcases hostTurn_cases s with ⟨h3, h4⟩ | ⟨a, rest, h3, h4⟩
    · refine .inr (.inr ?_)
      rw [h2, h4] at h; rw [← Host.Outcome.next.inj h]
    · refine .inr (.inl ⟨a, { s with host := rest }, ⟨.inr ⟨h1, h1, hb⟩, h3, rfl⟩, ?_⟩)
      rw [h2, h4] at h
      rw [← h]; simp only [← h3]

/-- All that a host action answering a next state can be, from the state `r` with the action taken
off. -/
theorem hostMove_eq_next {a : HostAction} {r t : State}
    (h : hostAct a r.host { r with host := a :: r.host } = .next t) :
    (∃ l, a = .resetPin l ∧ t = driveResetPin l r) ∨
    (r.rstN = true ∧ ∃ off size, a = .read off size ∧ t = busRead off size r) ∨
    (r.rstN = true ∧ ∃ off size w, a = .write off size w ∧ t = busWrite off size w r) ∨
    (r.rstN = true ∧ a = .wait ∧
      t = { r with
        response := some (.readData r.statusWord)
        host := if r.busy then .wait :: r.host else r.host }) := by
  rcases hostAct_eq_next h with ⟨l, h1, h2⟩ | ⟨h0, off, size, h1, h2⟩ | ⟨h0, off, size, w, h1, h2⟩ |
    ⟨h0, h1, h2⟩
  · exact .inl ⟨l, h1, h2⟩
  · exact .inr (.inl ⟨h0, off, size, h1, h2⟩)
  · exact .inr (.inr (.inl ⟨h0, off, size, w, h1, h2⟩))
  · refine .inr (.inr (.inr ⟨h0, h1, ?_⟩))
    rw [h2, busRead, route_status]
    rfl

end Sys2Proof.Machine
end

