-- ==== Sys2Proof/Tests/Slice0.lean ====
section
/-! SUPPORT. Tests of the model against spec/95_test_vectors.md, the corner cases of the command
rules, and the witnesses of the statements' hypotheses. Every expected value is the spec's own. -/

namespace Sys2Proof.Tests

/- The evaluations below run one after another, so that their memory does not add up. -/
set_option Elab.async false

open Sys2Proof.Machine Sys2Proof.Machine.Safety

/-! ## Well-formedness: the one check, refused for each command that has a byte range -/

theorem test_wf_noise : wellFormed (.noise .p0 4096) = true ∧ wellFormed (.noise .p0 4097) = false := by
  decide
theorem test_wf_helprec :
    wellFormed (.helprec .p0 .p1 8160) = true ∧ wellFormed (.helprec .p0 .p1 8161) = false := by decide
theorem test_wf_rec :
    wellFormed (.reconcile .p0 .p1 8160) = true ∧ wellFormed (.reconcile .p0 .p1 8161) = false := by
  decide
theorem test_wf_hpack : wellFormed (.hpack .p0 7936) = true ∧ wellFormed (.hpack .p0 7937) = false := by
  decide
theorem test_wf_hunpack :
    wellFormed (.hunpack .p0 7936) = true ∧ wellFormed (.hunpack .p0 7937) = false := by decide

/-! ## Decoding: one word per constructor (95_test_vectors.md EN1 to EN20) -/

theorem test_decode_nop : decode 0x00000000 = .ok .nop := by decide
theorem test_decode_pzero : decode 0x05800000 = .ok (.pzero .p3) := by decide
theorem test_decode_pcopy : decode 0x08800000 = .ok (.pcopy .p1 .p0) := by decide
theorem test_decode_bzero : decode 0x0C000000 = .ok .bzero := by decide
theorem test_decode_preduce : decode 0x10800000 = .ok (.preduce .p1 .p0) := by decide
theorem test_decode_pfreeze : decode 0x15100000 = .ok (.pfreeze .p2 .p1) := by decide
theorem test_decode_pflipabs : decode 0x1BF00000 = .ok (.pflipabs .p7 .p7) := by decide
theorem test_decode_padd : decode 0x21020000 = .ok (.padd .p2 .p0 .p1) := by decide
theorem test_decode_psub : decode 0x25900000 = .ok (.psub .p3 .p1 .p0) := by decide
theorem test_decode_pmul : decode 0x2A260000 = .ok (.pmul .p4 .p2 .p3) := by decide
theorem test_decode_ntt : decode 0x40800000 = .ok (.ntt .p1 .p0) := by decide
theorem test_decode_intt : decode 0x44100000 = .ok (.intt .p0 .p1) := by decide
theorem test_decode_noise : decode 0x63001000 = .ok (.noise .p6 4096) := by decide
theorem test_decode_helprec : decode 0x83E01FE0 = .ok (.helprec .p7 .p6 8160) := by decide
theorem test_decode_rec : decode 0x84020300 = .ok (.reconcile .p0 .p1 0x300) := by decide
theorem test_decode_hpack : decode 0x88701F00 = .ok (.hpack .p7 7936) := by decide
theorem test_decode_hunpack : decode 0x8D800200 = .ok (.hunpack .p3 0x200) := by decide

/-- The other direction on the same words. -/
theorem test_encode :
    [Instr.nop, .pzero .p3, .pcopy .p1 .p0, .bzero, .preduce .p1 .p0, .pfreeze .p2 .p1,
      .pflipabs .p7 .p7, .padd .p2 .p0 .p1, .psub .p3 .p1 .p0, .pmul .p4 .p2 .p3, .ntt .p1 .p0,
      .intt .p0 .p1, .noise .p6 4096, .helprec .p7 .p6 8160, .reconcile .p0 .p1 0x300,
      .hpack .p7 7936, .hunpack .p3 0x200].map encode =
    [0x00000000, 0x05800000, 0x08800000, 0x0C000000, 0x10800000, 0x15100000, 0x1BF00000, 0x21020000,
      0x25900000, 0x2A260000, 0x40800000, 0x44100000, 0x63001000, 0x83E01FE0, 0x84020300,
      0x88701F00, 0x8D800200] := by decide

/-- Rejected words with code 1: ER1, ER2, ER3, ER17. -/
theorem test_check_illegal :
    [0xFFFFFFFF, 0x1C000000, 0x2C000000, 0x1C002000].map check = [1, 1, 1, 1] := by decide

/-- Rejected words with code 2: ER4 to ER11, ER16. -/
theorem test_check_reserved :
    [0x00002000, 0x00000001, 0x04100000, 0x0C800000, 0x84800000, 0x20000001, 0x40020000, 0x21022000,
      0x60003001].map check = [2, 2, 2, 2, 2, 2, 2, 2, 2] := by decide

/-- Rejected words with code 3: ER12 to ER15. -/
theorem test_check_range :
    [0x60001001, 0x80801FE1, 0x88101F01, 0x8C001F01].map check = [3, 3, 3, 3] := by decide

/-- The decoder rejects the same words by name. -/
theorem test_decode_rejects :
    decode 0x1C002000 = .error .illegalOpcode ∧ decode 0x60003001 = .error .reservedField ∧
      decode 0x8C001F01 = .error .bmemRange := by decide

/-- The rows of the opcode map exclude one another: each pair differs in a bit both masks cover. -/
theorem test_rows_disjoint :
    opTable.Pairwise fun r q => (r.pattern ^^^ q.pattern) &&& r.mask &&& q.mask ≠ 0 := by decide

theorem test_decodeTableWord : decodeTableWord 32 0x25900000 = some (.psub .p3 .p1 .p0) := by decide

/-! ## Small states -/

/-- The state after the reset clear. -/
def idle : State := { State.reset with inflight := .empty }

/-- `s` with some coefficients of a register set. -/
def load (s : State) (r : PReg) (cs : List (Nat × Nat)) : State :=
  s.setPoly r (cs.foldl (fun v c => v.set c.1 (BitVec.ofNat 16 c.2)) (s.poly r))

/-- `s` with bytes written from an offset on. -/
def loadBytes (s : State) (a : Nat) (bs : List Byte) : State :=
  { s with bmem := s.bmem.writeBytes a bs }

/-- The coefficients at some indices of a register after a step that answers a next state. -/
def coeffsAfter (o : Result) (r : PReg) (ks : List Nat) : List Nat :=
  match o with
  | .next t => ks.map (t.poly r).coeff
  | .fault _ => []
  | .refused _ => []

/-- Bytes of BMEM after a step that answers a next state. -/
def bytesAfter (o : Result) (offs : List Nat) : List Nat :=
  match o with
  | .next t => offs.map fun a => (t.bmem.read a).toNat
  | .fault _ => []
  | .refused _ => []

/-- STATUS, CTRL, ERRCMD and IRQ after a step that answers a next state. -/
def statusAfter (o : Result) : Option (Word × Word × Word × Bool) :=
  match o with
  | .next t => some (t.statusWord, t.ctrlWord, t.errcmd, t.irq)
  | .fault _ => none
  | .refused _ => none

/-- The bus answer after a step that answers a next state. -/
def answerAfter (o : Result) : Option Response :=
  match o with
  | .next t => t.response
  | .fault _ => none
  | .refused _ => none

/-! ## Meanings (95_test_vectors.md L2) -/

/-- HK1. -/
theorem test_nop_status : statusAfter (execNop idle) = some (2, 0, 0, false) := by decide +kernel

/-- HK3, on a coefficient that was not 0. -/
theorem test_pzero : coeffsAfter (execPzero .p3 (load idle .p3 [(5, 77)])) .p3 [5, 1023] = [0, 0] := by
  decide +kernel

/-- HK2: values are copied, not reduced. -/
theorem test_pcopy :
    coeffsAfter (execPcopy .p1 .p0 (load idle .p0 [(0, 65535), (1023, 12289)])) .p1 [0, 1, 1023] =
      [65535, 0, 12289] := by decide +kernel

/-- HK4. -/
theorem test_bzero : bytesAfter (execBzero (loadBytes idle 8191 [0x55])) [0, 8191] = [0, 0] := by
  decide +kernel

/-- The inputs of MR1, MR6, MR7, MR9, MR13, MR14, MR15, MR17. -/
def reductionInputs : State :=
  load idle .p0
    [(0, 0), (1, 12288), (2, 12289), (3, 12345), (4, 24578), (5, 40000), (6, 61445), (7, 65535)]

theorem test_preduce :
    coeffsAfter (execPreduce .p1 .p0 reductionInputs) .p1 [0, 1, 2, 3, 4, 5, 6, 7] =
      [0, 12288, 12289, 12345, 12289, 3133, 12289, 16379] := by decide +kernel
theorem test_pfreeze :
    coeffsAfter (execPfreeze .p0 .p0 reductionInputs) .p0 [0, 1, 2, 3, 4, 5, 6, 7] =
      [0, 12288, 0, 56, 0, 3133, 0, 4090] := by decide +kernel
theorem test_pflipabs :
    coeffsAfter (execPflipabs .p1 .p0 reductionInputs) .p1 [0, 1, 2, 3, 4, 5, 6, 7] =
      [6144, 6144, 6144, 6088, 6144, 3011, 6144, 2054] := by decide +kernel

/-- The inputs of PA2, PA4, PA6, PA8, PA10, PA14. -/
def arithInputs : State :=
  load (load idle .p0 [(0, 0), (1, 12288), (2, 6144), (3, 0), (4, 65535), (5, 100)]) .p1
    [(0, 1), (1, 1), (2, 6145), (3, 65535), (4, 65535), (5, 200)]

theorem test_padd :
    coeffsAfter (execPadd .p0 .p0 .p1 arithInputs) .p0 [0, 1, 2, 3, 4, 5] =
      [1, 0, 0, 4090, 8180, 300] := by decide +kernel
theorem test_psub :
    coeffsAfter (execPsub .p1 .p0 .p1 arithInputs) .p1 [0, 1, 2, 3, 4, 5] =
      [12288, 12287, 12288, 8199, 0, 12189] := by decide +kernel
theorem test_pmul :
    coeffsAfter (execPmul .p2 .p0 .p1 arithInputs) .p2 [0, 1, 2, 3, 4, 5] =
      [0, 12288, 3072, 0, 2771, 7711] := by decide +kernel
/-- PA15: both sources and the destination the same register. -/
theorem test_psub_alias :
    coeffsAfter (execPsub .p0 .p0 .p0 (load idle .p0 [(9, 7)])) .p0 [9] = [0] := by decide +kernel

/-- TR2: NTT of X. -/
theorem test_ntt_x :
    coeffsAfter (execNtt .p1 .p0 (load idle .p0 [(1, 1)])) .p1 [0, 1, 2, 3, 1023] =
      [7, 343, 4518, 180, 8778] := by decide +kernel
/-- TR9: unreduced inputs enter as their residues. -/
theorem test_ntt_unreduced :
    coeffsAfter (execNtt .p0 .p0 (load idle .p0 [(0, 12289), (1, 65535)])) .p0 [0, 1] =
      [4052, 1924] := by decide +kernel
/-- TR8: INTT of delta0. -/
theorem test_intt_delta :
    coeffsAfter (execIntt .p1 .p0 (load idle .p0 [(0, 1)])) .p1 [0, 1, 2, 3, 1023] =
      [12277, 5265, 9530, 3117, 84] := by decide +kernel
/-- TR7: INTT of ones. -/
theorem test_intt_ones :
    coeffsAfter (execIntt .p0 .p0 (idle.setPoly .p0 (Poly.tab fun _ => 1))) .p0 [0, 1, 1023] =
      [1, 0, 0] := by decide +kernel

/-- NS2, NS3, NS7, NS8, NS10 at an unaligned offset. -/
theorem test_noise :
    coeffsAfter (execNoise .p2 3 (loadBytes idle 3
      [0xFF, 0xFF, 0, 0, 0, 0, 0xFF, 0xFF, 0, 0, 1, 0, 0xAA, 0x55, 0, 0, 0xFF, 0xFF, 0xFF, 0xFE]))
      .p2 [0, 1, 2, 3, 4, 5] = [16, 12273, 12288, 8, 1, 0] := by decide +kernel
/-- NS12: the last coefficient uses the last four bytes, at the last legal offset. -/
theorem test_noise_last :
    coeffsAfter (execNoise .p0 4096 (loadBytes idle 8188 [0xFF, 0x7F])) .p0 [1022, 1023] =
      [0, 15] := by decide +kernel

/-- A state with group 0 of P0 as in RC7 and RC8, and the dither bit given. -/
def groupState (a b c d : Nat) (dither : Byte) : State :=
  loadBytes (load idle .p0 [(0, a), (256, b), (512, c), (768, d)]) 0x100 [dither]

/-- RC7. -/
theorem test_helprec_rc7 :
    coeffsAfter (execHelprec .p1 .p0 0x100 (groupState 1000 5000 9000 11000 1)) .p1
      [0, 256, 512, 768, 1] = [1, 2, 3, 3, 0] := by decide +kernel
/-- RC13, in place. -/
theorem test_helprec_rc13 :
    coeffsAfter (execHelprec .p0 .p0 0x100 (groupState 2000 8000 2000 8000 1)) .p0
      [0, 256, 512, 768] = [2, 0, 2, 1] := by decide +kernel
/-- RC7 and RC1: key bit 0 is 0, groups 1 to 7 give 1. -/
theorem test_rec_rc7 :
    bytesAfter (execReconcile .p0 .p1 0x300
      (load (groupState 1000 5000 9000 11000 1) .p1 [(0, 1), (256, 2), (512, 3), (768, 3)]))
      [0x300] = [0xFE] := by decide +kernel
/-- RC12, with the helper values raised by 4 (RC18). -/
theorem test_rec_rc12 :
    bytesAfter (execReconcile .p0 .p1 8160
      (load (groupState 4000 4000 4000 4000 0) .p1 [(0, 4), (256, 4), (512, 4), (768, 7)]))
      [8160] = [0xFF] := by decide +kernel

/-- HC1 and HC4: coefficients above 3 act as their low two bits. -/
theorem test_hpack :
    bytesAfter (execHpack .p1 0x200 (load idle .p1
      [(0, 1), (1, 2), (2, 3), (3, 0), (4, 7), (5, 4), (6, 5), (7, 6)])) [0x200, 0x201] =
      [0x39, 0x93] := by decide +kernel
/-- HC6, HC7 and HC8. -/
theorem test_hunpack :
    coeffsAfter (execHunpack .p3 0x200 (loadBytes idle 0x200 [0x39, 0x93, 0xE4])) .p3
      [0, 1, 2, 3, 4, 5, 6, 7, 8, 9, 10, 11] = [1, 2, 3, 0, 3, 0, 1, 2, 0, 1, 2, 3] := by
  decide +kernel

/-! ## The bus, the lifecycle, reset (95_test_vectors.md CS1 to CS17, ER18) -/

/-- `s` with the host's turn and one action. -/
def act (s : State) (a : HostAction) : State := { s with host := [a], turns := [.host] }

/-- CS1: reset clear running; CS2: the engine's step ends it. -/
theorem test_reset_status :
    answerAfter (step (act State.reset (r32 0x00C))) = some (.readData 1) ∧
      statusAfter (step State.reset) = some (0, 0, 0, false) := by decide +kernel
/-- CS3 and CS4. -/
theorem test_read_constants :
    [r32 0x000, r32 0x004, r32 0x008].map (fun a => answerAfter (step (act idle a))) =
      [some (.readData 0x4E480001), some (.readData 0x05A33001), some (.readData 0)] := by
  decide +kernel
/-- CS5, CS6, CS7: error answer and BERR. -/
theorem test_bus_errors :
    [r16 0x0000, r32 0x0018, r32 0x2002].map (fun a => (answerAfter (step (act idle a)),
      statusAfter (step (act idle a)))) =
      [(some .readError, some (8, 0, 0, false)), (some .readError, some (8, 0, 0, false)),
       (some .readError, some (8, 0, 0, false))] := by decide +kernel
/-- CS8: a 1-byte write to P changes no coefficient. -/
theorem test_byte_write_to_poly :
    coeffsAfter (step (act (load idle .p0 [(0, 9)]) (w8 0x4000 0x12))) .p0 [0] = [9] ∧
      answerAfter (step (act idle (w8 0x4000 0x12))) = some .writeError := by decide +kernel
/-- CS9: a data read while BUSY = 1. -/
theorem test_busy_read :
    answerAfter (step (act State.reset (r16 0x4000))) = some .readError := by decide +kernel
/-- CS11, at the last pair of P7. -/
theorem test_write_coefficients :
    coeffsAfter (step (act idle (w32 0x7FFC 0x00020001))) .p7 [1021, 1022, 1023] = [0, 1, 2] := by
  decide +kernel
/-- CS12: little-endian bytes, at the top of BMEM too. -/
theorem test_write_bytes :
    bytesAfter (step (act idle (w32 0x2000 0x11223344))) [0, 1, 2, 3, 4] =
      [0x44, 0x33, 0x22, 0x11, 0] ∧
    bytesAfter (step (act idle (w32 0x3FFC 0x11223344))) [8188, 8191] = [0x44, 0x11] ∧
    answerAfter (step (act (loadBytes idle 2 [0x22, 0x11]) (r16 0x2002))) =
      some (.readData 0x1122) := by decide +kernel
/-- CS10 and CS16: W1C, ERRCMD kept. -/
theorem test_w1c :
    statusAfter (step (act { idle with berr := true } (w32 0x00C 8))) = some (0, 0, 0, false) ∧
    statusAfter (step (act (idle.reject 0x1C000000 1) (w32 0x00C 4))) =
      some (0, 0, 0x1C000000, false) := by decide +kernel
/-- CS13 and CS14: the DONE interrupt. -/
theorem test_irq :
    statusAfter (execNop { idle with ieDone := true }) = some (2, 1, 0, true) ∧
    statusAfter (step (act { idle with done := true } (w32 0x010 1))) = some (2, 1, 0, true) := by
  decide +kernel
/-- ER2, CS15, ER18. -/
theorem test_submit :
    statusAfter (step (act idle (w32 0x008 0x1C000000))) = some (0x14, 0, 0x1C000000, false) ∧
    statusAfter (step (act (idle.reject 0x1C000000 1) (w32 0x008 0))) =
      some (0x14, 0, 0x1C000000, false) ∧
    statusAfter (step (act { idle with inflight := .command 0x40800000 } (w32 0x008 0))) =
      some (0x55, 0, 0, false) ∧
    statusAfter (step (act { idle with done := true } (w32 0x008 0))) = some (1, 0, 0, false) := by
  decide +kernel
/-- CS17: soft reset, enables of the same write discarded. -/
theorem test_soft_reset :
    statusAfter (step (act (load (idle.reject 5 2) .p0 [(0, 3)]) (w32 0x010 0x80000003))) =
      some (1, 0, 0, false) ∧
    coeffsAfter (step (act (load idle .p0 [(0, 3)]) (w32 0x010 0x80000003))) .p0 [0] = [0] := by
  decide +kernel
/-- R290: the reset happens when the pin returns to 1. -/
theorem test_hardware_reset :
    coeffsAfter (step (act (load idle .p0 [(0, 3)]) (.resetPin false))) .p0 [0] = [3] ∧
    coeffsAfter (step (act { load idle .p0 [(0, 3)] with rstN := false } (.resetPin true))) .p0 [0] =
      [0] ∧
    statusAfter (step (act { idle with rstN := false } (.resetPin true))) = some (1, 0, 0, false) := by
  decide +kernel
/-- WAIT polls until BUSY = 0. -/
theorem test_wait :
    (match step (act State.reset .wait) with
      | .next t => t.host
      | _ => []) = [.wait] ∧
    (match step (act idle .wait) with
      | .next t => t.host
      | _ => [.wait]) = [] := by decide +kernel

/-- The placed command runs as the first instruction after reset. -/
theorem test_fetch_word :
    statusAfter (step (State.reset.withFetchWord 32 0x00000000)) = some (2, 0, 0, false) ∧
    coeffsAfter (step ((load State.reset .p0 [(0, 5)]).withFetchWord 32 0x08800000)) .p1 [0] = [5] ∧
    statusAfter (step (State.reset.withFetchWord 32 0x84020300)) = some (2, 0, 0, false) := by
  decide +kernel

/-! ## Assembler (30_encoding.md R99, R100) -/

theorem test_assemble :
    assemble "PADD p2, p0, p1".toList = some [.padd .p2 .p0 .p1] ∧
    assemble "helprec P7,P6,0x1FE0".toList = some [.helprec .p7 .p6 8160] ∧
    assemble "PNEG p1, p2".toList = some [.pzero .p1, .psub .p1 .p1 .p2] ∧
    assemble "PNEG p1, p1".toList = none ∧ assemble "HPACK p1, 8192".toList = none := by
  decide +kernel
theorem test_asm :
    Instr.asm (.reconcile .p0 .p1 768) = "REC p0, p1, 768" ∧ Instr.asm .bzero = "BZERO" := by
  decide +kernel

/-! ## Witnesses: for each statement with hypotheses, states and operands that meet them

The theorem `witness_X` stands for `Obligations.X`; where a statement has several clauses, each has
one at the boundary of its range. -/

theorem act_moves (s : State) (a : HostAction) :
    HostMoves (act s a) a { s with host := [], turns := [] } := ⟨.inl rfl, rfl, rfl⟩

/-- With no turn named, the host moves while BUSY = 0. -/
theorem idle_moves (a : HostAction) : HostMoves { idle with host := [a] } a idle :=
  ⟨.inr ⟨rfl, rfl, rfl⟩, rfl, rfl⟩

/-- `s` with the command word `w` in flight, with the engine's turn named or none. -/
def running (w : Word) (ts : List Agent) : State :=
  { idle with inflight := .command w, turns := ts }

theorem running_moves (w : Word) :
    EngineMoves (running w [.engine]) (running w []) ∧ EngineMoves (running w []) (running w []) :=
  ⟨⟨.inl rfl, rfl⟩, ⟨.inr ⟨rfl, rfl, rfl⟩, rfl⟩⟩

theorem clear_moves : EngineMoves State.reset State.reset := ⟨.inr ⟨rfl, rfl, rfl⟩, rfl⟩

/-- The state while the pin `rst_n` is 0. -/
def held : State := { idle with rstN := false }

/-- A state with BMEM canonical and not all 0. -/
def marked : State := loadBytes idle 8191 [0x55]

theorem marked_wf : marked.bmem.wf := by decide

theorem inv_idle : Inv idle where
  bmem_wf := Memory.nil_wf
  errcode_clear _ := rfl
  errcode_set h := (Bool.false_ne_true h).elim
  inflight_checked _ h := (nomatch (show Inflight.empty = .command _ from h))
  busy_not_done h := (Bool.false_ne_true h).elim

theorem witness_DecodeOfEncode :
    [Instr.nop, .noise .p7 4096, .helprec .p7 .p0 8160, .reconcile .p7 .p7 8160, .hpack .p7 7936,
      .hunpack .p7 7936].all wellFormed = true := by decide

theorem witness_EncodeOfDecode : decode 0x84020300 = .ok (.reconcile .p0 .p1 0x300) := by decide

/-- One word for each clause: OPC 0x3F; a nonzero RS2 of NTT; BOFF one past the last legal value of
NOISE, HELPREC and HPACK; and the last legal values. -/
theorem witness_CheckAnswersTheFirstFailingCheck :
    0xFFFFFFFF / 2 ^ 26 = 0x3F ∧
    (0x40020000 / 2 ^ 26 = 0x10 ∧ 0x40020000 / 2 ^ 17 % 8 ≠ 0) ∧
    (0x60001001 / 2 ^ 26 = 0x18 ∧ 8192 < 0x60001001 % 2 ^ 13 + 4096 ∧ 0x60001001 / 2 ^ 13 % 16 = 0) ∧
    (0x80801FE1 / 2 ^ 26 = 0x20 ∧ 8192 < 0x80801FE1 % 2 ^ 13 + 32 ∧ 0x80801FE1 / 2 ^ 17 % 8 = 0) ∧
    (0x88101F01 / 2 ^ 26 = 0x22 ∧ 8192 < 0x88101F01 % 2 ^ 13 + 256 ∧ 0x88101F01 / 2 ^ 23 % 8 = 0) ∧
    [0x60001000, 0x80801FE0, 0x84001FE0, 0x88101F00, 0x8C001F00].map check = [0, 0, 0, 0, 0] := by
  decide

theorem witness_DecodeAgreesWithCheck :
    decode 0x8C001F00 = .ok (.hunpack .p0 7936) ∧ decode 0x8C001F01 = .error .bmemRange := by decide

theorem witness_ValidWordSelectsOneRow : check 0 = 0 ∧ check 0x8FF00000 = 2 ∧ check 0x8F801F00 = 0 := by
  decide

theorem witness_StepRunsTheDecodedCommand :
    EngineMoves (running 0x0C000000 [.engine]) (running 0x0C000000 []) ∧
    EngineMoves (running 0x0C000000 []) (running 0x0C000000 []) ∧
    (running 0x0C000000 []).inflight = .command 0x0C000000 ∧ decode 0x0C000000 = .ok .bzero :=
  ⟨(running_moves _).1, (running_moves _).2, rfl, by decide⟩

theorem witness_PlacedCommandRunsNext :
    decodeTableWord 32 0x8F801F00 = some (.hunpack .p7 7936) ∧ decodeTableWord 0 5 = some .nop := by
  decide

theorem witness_CompletionNeverFails :
    (EngineMoves (running 0x8F801F00 []) (running 0x8F801F00 []) ∧
      (running 0x8F801F00 []).inflight = .command 0x8F801F00 ∧ check 0x8F801F00 = 0) ∧
    EngineMoves State.reset State.reset ∧ State.reset.inflight = .clear :=
  ⟨⟨(running_moves _).2, rfl, by decide⟩, clear_moves, rfl⟩

/-- Also with the engine's turn named, ERR and IE_ERR set. -/
theorem witness_ClearOnlyEmptiesInflight :
    EngineMoves { State.reset with ieErr := true, err := true, errcode := 5, turns := [.engine] }
      { State.reset with ieErr := true, err := true, errcode := 5 } := ⟨.inl rfl, rfl⟩

/-- The four clauses: ERR = 1, BUSY = 1, a failing check, an accepted word. -/
theorem witness_SubmitFollowsTheSubmitBlock :
    (HostMoves (act (idle.reject 5 2) (w32 0x008 0)) (.write 0x008 .b4 0)
        { idle.reject 5 2 with host := [], turns := [] } ∧ (idle.reject 5 2).err = true) ∧
    (HostMoves (act State.reset (w32 0x008 0)) (.write 0x008 .b4 0) State.reset ∧
      State.reset.err = false ∧ State.reset.busy = true) ∧
    (HostMoves { idle with host := [w32 0x008 0x60001001] } (.write 0x008 .b4 0x60001001) idle ∧
      idle.err = false ∧ idle.busy = false ∧ idle.rstN = true ∧ check 0x60001001 ≠ 0) ∧
    (HostMoves { idle with host := [w32 0x008 0x60001000] } (.write 0x008 .b4 0x60001000) idle ∧
      check 0x60001000 = 0) :=
  ⟨⟨act_moves _ _, rfl⟩, ⟨act_moves _ _, rfl, rfl⟩, ⟨idle_moves _, rfl, rfl, rfl, by decide⟩,
    idle_moves _, by decide⟩

theorem witness_EveryCompletionHasTheFrame : ∀ i : Instr, wellFormed i = true →
    ∃ t, exec i idle = .next t := fun _ h => exec_completes h idle

theorem witness_IdAndCfgAreConstant :
    idle.rstN = true ∧
    HostMoves { idle with host := [.read 0x000 .b4] } (.read 0x000 .b4) idle ∧
    HostMoves { idle with host := [.read 0x004 .b4] } (.read 0x004 .b4) idle ∧
    HostMoves { idle with host := [.write 0x000 .b4 7] } (.write 0x000 .b4 7) idle ∧
    HostMoves { idle with host := [.write 0x004 .b4 7] } (.write 0x004 .b4 7) idle :=
  ⟨rfl, idle_moves _, idle_moves _, idle_moves _, idle_moves _⟩

theorem witness_StatusRegistersReadTheirFields :
    State.reset.rstN = true ∧
    HostMoves (act State.reset (.read 0x008 .b4)) (.read 0x008 .b4) State.reset ∧
    HostMoves (act State.reset (.read 0x00C .b4)) (.read 0x00C .b4) State.reset ∧
    HostMoves (act State.reset (.read 0x010 .b4)) (.read 0x010 .b4) State.reset ∧
    HostMoves (act State.reset (.read 0x014 .b4)) (.read 0x014 .b4) State.reset ∧
    HostMoves (act State.reset (.write 0x014 .b4 7)) (.write 0x014 .b4 7) State.reset :=
  ⟨rfl, act_moves _ _, act_moves _ _, act_moves _ _, act_moves _ _, act_moves _ _⟩

theorem witness_StatusWriteClearsOnes :
    HostMoves { idle with host := [.write 0x00C .b4 0xE] } (.write 0x00C .b4 0xE) idle ∧
    HostMoves (act State.reset (.write 0x00C .b4 0)) (.write 0x00C .b4 0) State.reset ∧
    idle.rstN = true := ⟨idle_moves _, act_moves _ _, rfl⟩

theorem witness_CtrlWriteSetsEnables :
    (HostMoves (act State.reset (.write 0x010 .b4 7)) (.write 0x010 .b4 7) State.reset ∧
      (7 : Word).getLsbD 31 = false) ∧
    (HostMoves { idle with host := [.write 0x010 .b4 0x80000007] } (.write 0x010 .b4 0x80000007) idle ∧
      (0x80000007 : Word).getLsbD 31 = true) ∧
    HostMoves { idle with host := [.read 0x010 .b4] } (.read 0x010 .b4) idle :=
  ⟨⟨act_moves _ _, by decide⟩, ⟨idle_moves _, by decide⟩, idle_moves _⟩

theorem witness_EitherResetErasesEverything :
    (HostMoves (act State.reset (.write 0x010 .b4 0x80000000)) (.write 0x010 .b4 0x80000000)
        State.reset ∧ (0x80000000 : Word).getLsbD 31 = true ∧ State.reset.rstN = true) ∧
    (HostMoves { held with host := [.resetPin true] } (.resetPin true) held ∧ held.rstN = false) :=
  ⟨⟨act_moves _ _, by decide, rfl⟩, ⟨.inr ⟨rfl, rfl, rfl⟩, rfl, rfl⟩, rfl⟩

theorem witness_AccessInResetIsRefused :
    held.rstN = false ∧
    HostMoves (act held (.read 0x000 .b4)) (.read 0x000 .b4) held ∧
    HostMoves (act held (.write 0x7FFF .b1 0)) (.write 0x7FFF .b1 0) held ∧
    HostMoves (act held .wait) .wait held := ⟨rfl, act_moves _ _, act_moves _ _, act_moves _ _⟩

/-- Every offset and size has a host move; here at the edges of the clauses: the last control byte,
the first and last reserved words, the first BMEM byte while BUSY = 1, a byte of P, and the last
admitted ones. -/
theorem witness_BusErrorExactlyWhen :
    State.reset.busy = true ∧ idle.busy = false ∧
    (∀ off size, HostMoves { idle with host := [.read off size] } (.read off size) idle) ∧
    (∀ off size w, HostMoves (act State.reset (.write off size w)) (.write off size w) State.reset) ∧
    (route false 0x17 .b1 = none ∧ route false 0x18 .b4 = none ∧ route false 0x1FFC .b4 = none ∧
      route true 0x2000 .b1 = none ∧ route false 0x4000 .b1 = none ∧ route false 0x7FFE .b4 = none) ∧
    (route true 0x14 .b4 = some (.ctrl .errcmd) ∧ route false 0x2000 .b1 = some (.bmem 0) ∧
      route false 0x3FFF .b1 = some (.bmem 8191) ∧ route false 0x4000 .b2 = some (.poly .p0 0) ∧
      route false 0x7FFE .b2 = some (.poly .p7 1023)) :=
  ⟨rfl, rfl, fun _ _ => idle_moves _, fun _ _ _ => act_moves _ _, by decide +kernel, by decide +kernel⟩

/-- The last byte, half-word and word of BMEM. -/
theorem witness_BmemAccessesMoveBytes :
    (marked.rstN = true ∧ marked.busy = false ∧ marked.bmem.wf) ∧
    ([(8191, Size.b1), (8190, .b2), (8188, .b4)].all fun x =>
      decide (x.1 % x.2.bytes = 0 ∧ x.1 + x.2.bytes ≤ 8192)) = true ∧
    (∀ off size, HostMoves (act marked (.read off size)) (.read off size) marked) ∧
    (∀ off size w, HostMoves (act marked (.write off size w)) (.write off size w) marked) :=
  ⟨⟨rfl, rfl, marked_wf⟩, by decide, fun _ _ => act_moves _ _, fun _ _ _ => act_moves _ _⟩

/-- The last coefficient and the last even one. -/
theorem witness_PolyAccessesMoveCoefficients :
    idle.rstN = true ∧ idle.busy = false ∧ (1023 < 1024 ∧ 1022 < 1024 ∧ 1022 % 2 = 0) ∧
    (∀ off size, HostMoves { idle with host := [.read off size] } (.read off size) idle) ∧
    (∀ off size w, HostMoves { idle with host := [.write off size w] } (.write off size w) idle) :=
  ⟨rfl, rfl, by decide, fun _ _ => idle_moves _, fun _ _ _ => idle_moves _⟩

theorem witness_AccessesAreIdempotent :
    marked.bmem.wf ∧ ((0x00C : Offset).toNat ≠ 0x008 ∧ (0x00C : Offset).toNat ≠ 0x010) ∧
      (7 : Word).getLsbD 31 = false := ⟨marked_wf, by decide, by decide⟩

theorem witness_WindowAddressesAreBasePlusOffset :
    windowOffset 0x10000000 0x10000000 = some 0 ∧ windowOffset 0x10000000 0x10007FFF = some 0x7FFF ∧
      windowOffset 0x10000000 0x10008000 = none ∧ windowOffset 0x10000000 0x0FFFFFFF = none := by
  decide

/-- For every row of the opcode map the word with its used fields all 1, or its BOFF at the last
legal offset and at the first illegal one: the mask gives the pattern. -/
theorem witness_command_words :
    [0x07800000, 0x63801000, 0x63801001, 0x8F801F00, 0x8F801F01].map
        (fun w : Word => (w &&& 0xFC7FFFFF, w &&& 0xFC7FE000, (boffField w).toNat)) =
      [(0x04000000, 0x04000000, 0), (0x60001000, 0x60000000, 4096), (0x60001001, 0x60000000, 4097),
        (0x8C001F00, 0x8C000000, 7936), (0x8C001F01, 0x8C000000, 7937)] ∧
    [0x0BF00000, 0x13F00000, 0x17F00000, 0x1BF00000, 0x43F00000, 0x47F00000].map
        (fun w : Word => w &&& 0xFC0FFFFF) =
      [0x08000000, 0x10000000, 0x14000000, 0x18000000, 0x40000000, 0x44000000] ∧
    [0x23FE0000, 0x27FE0000, 0x2BFE0000].map (fun w : Word => w &&& 0xFC01FFFF) =
      [0x20000000, 0x24000000, 0x28000000] ∧
    [0x83F01FE0, 0x83F01FE1].map (fun w : Word => (w &&& 0xFC0FE000, (boffField w).toNat)) =
      [(0x80000000, 8160), (0x80000000, 8161)] ∧
    [0x847E1FE0, 0x847E1FE1].map (fun w : Word => (w &&& 0xFF81E000, (boffField w).toNat)) =
      [(0x84000000, 8160), (0x84000000, 8161)] ∧
    [0x88701F00, 0x88701F01].map (fun w : Word => (w &&& 0xFF8FE000, (boffField w).toNat)) =
      [(0x88000000, 7936), (0x88000000, 7937)] := by decide

/-- The byte ranges of NOISE, HELPREC, REC, HPACK and HUNPACK at the last legal offsets, on a state
with BMEM canonical. -/
theorem witness_byte_ranges :
    marked.bmem.wf ∧ (4096 : BOff).toNat + 4096 ≤ 8192 ∧ (8160 : BOff).toNat + 32 ≤ 8192 ∧
      (7936 : BOff).toNat + 256 ≤ 8192 := ⟨marked_wf, by decide, by decide, by decide⟩

theorem witness_NopOnlyCompletes : opcField 0x03FFFFFF = 0 ∧ (0x03FFFFFF : Word) ≠ 0 := by decide

theorem witness_ArithmeticObeysTheRingLaws :
    PReg.p0 ≠ .p2 ∧ PReg.p0 ≠ .p3 ∧ PReg.p0 ≠ .p1 := by decide

theorem witness_TransformsMultiplyRingElements : PReg.p2 ≠ .p1 ∧ PReg.p2 ≠ .p3 := by decide

/-- Coefficients that differ by Q, helper coefficients that differ by 4. -/
theorem witness_ReconciliationSeesOnlyResidues :
    (∀ k, k < 1024 →
      (Poly.tab fun _ => 12290).coeff k % 12289 = (Poly.tab fun _ => 1).coeff k % 12289) ∧
    (∀ k, k < 1024 → (Poly.tab fun _ => 7).coeff k % 4 = (Poly.tab fun _ => 3).coeff k % 4) :=
  ⟨fun k h => by rw [Poly.coeff_tab_mod _ h, Poly.coeff_tab_mod _ h],
   fun k h => by rw [Poly.coeff_tab_mod _ h, Poly.coeff_tab_mod _ h]⟩

theorem witness_RangeOutsideBmemStops :
    [Instr.noise .p0 4097, .helprec .p0 .p0 8161, .reconcile .p0 .p0 8161, .hpack .p0 7937,
      .hunpack .p0 7937].all (fun i => wellFormed i == false) = true := by decide

theorem witness_PseudoInstructionsExpand : PReg.p0 ≠ .p1 ∧ PReg.p1 = .p1 := by decide

/-- Steps of either agent from a state that meets the invariant. -/
theorem witness_StepKeepsTheInvariant :
    Inv idle ∧ statusAfter (step { idle with host := [w32 0x008 0x60001000] }) =
      some (1, 0, 0, false) ∧
    statusAfter (step (running 0x0C000000 [])) = some (2, 0, 0, false) :=
  ⟨inv_idle, by decide +kernel, by decide +kernel⟩

theorem witness_StepNeverFaults : Inv idle ∧ idle.rstN = true := ⟨inv_idle, rfl⟩

/-- A host program: submit BZERO, wait, read STATUS, soft reset; with turns that hold the engine back
and without. -/
theorem witness_EveryHostProgramFinishes (ts : List Agent) :
    let s : State := { idle with
      turns := ts
      host := [w32 0x008 0x0C000000, .wait, r32 0x00C, w32 0x010 0x80000000] }
    Inv s ∧ outOfReset s :=
  ⟨⟨inv_idle.bmem_wf, inv_idle.errcode_clear, inv_idle.errcode_set, inv_idle.inflight_checked,
    inv_idle.busy_not_done⟩, rfl, by
    intro a ha; simp only [List.mem_cons, List.not_mem_nil, or_false] at ha
    rcases ha with rfl | rfl | rfl | rfl <;> exact nofun⟩

/-- A change of BMEM by each of the three causes. -/
theorem witness_DataChangesOnlyByThreeCauses :
    (bytesAfter (step { running 0x0C000000 [] with bmem := marked.bmem }) [8191] = [0] ∧
      bytesAfter (step (act marked (w8 0x3FFF 1))) [8191] = [1] ∧
      bytesAfter (step (act marked (w32 0x010 0x80000000))) [8191] = [0]) ∧
    marked.bmem.read 8191 = 0x55 := by decide +kernel

theorem witness_BusyHidesTheData :
    SameButData State.reset { State.reset with bmem := marked.bmem } ∧ State.reset.busy = true ∧
    HostMoves (act State.reset (r32 0x2000)) (r32 0x2000) State.reset ∧
    answerAfter (step (act State.reset (r32 0x2000))) = some .readError :=
  ⟨rfl, rfl, act_moves _ _, by decide +kernel⟩

theorem witness_ErasureLeavesNoTrace :
    HostMoves (act marked (.write 0x010 .b4 0x80000000)) (.write 0x010 .b4 0x80000000) marked ∧
      (0x80000000 : Word).getLsbD 31 = true := ⟨act_moves _ _, by decide⟩

/-- The three clauses: kept by a submission, cleared by the host, cleared by a reset. -/
theorem witness_FirstErrorIsKept :
    (idle.reject 5 2).err = true ∧
    [w32 0x008 0, w32 0x00C 4, w32 0x010 0x80000000].map
        (fun a => statusAfter (step (act (idle.reject 5 2) a))) =
      [some (0x24, 0, 5, false), some (0, 0, 5, false), some (1, 0, 0, false)] :=
  ⟨rfl, by decide +kernel⟩

/-- The two rejections and the reset. -/
theorem witness_ErrcmdHoldsTheRejectedWord :
    statusAfter (step (act State.reset (w32 0x008 7))) = some (0x55, 0, 7, false) ∧
    statusAfter (step (act idle (w32 0x008 0x60001001))) = some (0x34, 0, 0x60001001, false) ∧
    statusAfter (step (act (idle.reject 5 2) (w32 0x010 0x80000000))) = some (1, 0, 0, false) := by
  decide +kernel

/-- DONE set by a completion; BUSY set by an acceptance and by a reset. -/
theorem witness_DoneAndBusyHaveOneCauseEach :
    statusAfter (step (running 0 [])) = some (2, 0, 0, false) ∧
    statusAfter (step (act idle (w32 0x008 0))) = some (1, 0, 0, false) ∧
    statusAfter (step { held with host := [.resetPin true] }) = some (1, 0, 0, false) := by
  decide +kernel

end Sys2Proof.Tests
end

-- Control registers, status latch and invariant (10_state.md).
section
/-! SUPPORT. What a host move reads and writes at the control registers, and `StepEffect`: what a step
does to the fields the host sees through STATUS and ERRCMD, said once, from which the safety statements
follow case by case. -/

namespace Sys2Proof.Machine

open Safety

/-! ## Whose move a step is -/

variable {s r t : State} {a : HostAction}

theorem Safety.HostMoves.rstN_eq (m : HostMoves s a r) : r.rstN = s.rstN := by rw [m.rest]

theorem Safety.EngineMoves.inflight_eq (m : EngineMoves s r) : r.inflight = s.inflight := by
  rw [m.rest]

/-- `busy` reads INFLIGHT alone (10_state.md R35). -/
theorem State.busy_congr {u v : State} (h : u.inflight = v.inflight) : u.busy = v.busy := by
  unfold State.busy
  rw [h]

theorem State.busy_eq_true_iff (s : State) : s.busy = true ↔ s.inflight ≠ .empty := by
  unfold State.busy
  cases s.inflight <;> simp

theorem State.busy_eq_false_iff (s : State) : s.busy = false ↔ s.inflight = .empty := by
  unfold State.busy
  cases s.inflight <;> simp

/-- A step at which the host moves is that action from the state before it is taken off. -/
theorem step_of_hostMoves (m : HostMoves s a r) :
    step s = hostAct a r.host { r with host := a :: r.host } := by
  obtain ⟨turn, action, rest⟩ := m
  rcases turn with hturns | ⟨hturns, hr, hbusy⟩
  · rw [step, hturns, rest]
    simp [hostTurn, action]
  · have hs : s = { r with host := a :: r.host } := by
      rw [rest, ← action]
      simp only [hr, ← hturns]
    rw [← hs, step, hturns]
    simp [hostTurn, action, hbusy]

/-- Out of reset a read is the port's read. -/
theorem step_read {off : Offset} {size : Size} (m : HostMoves s (.read off size) r)
    (h : s.rstN = true) : step s = .next (busRead off size r) := by
  rw [step_of_hostMoves m]
  exact if_pos (m.rstN_eq.trans h)

/-- Out of reset a write is the port's write. -/
theorem step_write {off : Offset} {size : Size} {w : Word} (m : HostMoves s (.write off size w) r)
    (h : s.rstN = true) : step s = .next (busWrite off size w r) := by
  rw [step_of_hostMoves m]
  exact if_pos (m.rstN_eq.trans h)

/-! ## Control registers at their offsets -/

/-- The offset of a control register (10_state.md section 4). -/
def CtrlReg.offset : CtrlReg → Offset
  | .id => 0x000
  | .cfg => 0x004
  | .cmd => 0x008
  | .status => 0x00C
  | .ctrl => 0x010
  | .errcmd => 0x014

/-- A 4-byte access at a control register's offset reaches it, also while BUSY = 1
(20_memory.md R66, R68). -/
theorem route_ctrlReg (busy : Bool) (c : CtrlReg) : route busy c.offset .b4 = some (.ctrl c) := by
  cases c <;> rfl

/-- An offset decoded to a control register is that register's. -/
theorem eq_offset_of_ctrlRegAt {off : Offset} {c : CtrlReg} (h : ctrlRegAt off.toNat = some c) :
    off = c.offset := by
  have := ctrlRegAt_eq_some h
  cases c <;> exact this

/-- A read of a control register answers its value and changes nothing (20_memory.md R66). -/
theorem step_readCtrl (c : CtrlReg) (m : HostMoves s (.read c.offset .b4) r) (h : s.rstN = true) :
    step s = .next { r with response := some (.readData (r.readCtrl c)) } := by
  rw [step_read m h, busRead, route_ctrlReg]
  rfl

/-- A write to a control register has that register's effect. -/
theorem step_writeCtrl (c : CtrlReg) {w : Word} (m : HostMoves s (.write c.offset .b4 w) r)
    (h : s.rstN = true) :
    step s = .next { r.writeCtrlReg c w with response := some .writeDone } := by
  rw [step_write m h, busWrite, route_ctrlReg]
  rfl

/-- Without SRST a write to CTRL sets the three enables (10_state.md R33). -/
theorem State.writeCtrl_of_enables {w : Word} (h : w.getLsbD 31 = false) :
    s.writeCtrl w =
      { s with ieDone := w.getLsbD 0, ieErr := w.getLsbD 1, ieBerr := w.getLsbD 2 } := by
  rw [State.writeCtrl, if_neg (by rw [h]; decide)]

/-- With SRST a write to CTRL is the reset, whatever enables it writes
(70_reset_and_hazards.md R294). -/
theorem State.writeCtrl_of_srst {w : Word} (h : w.getLsbD 31 = true) :
    s.writeCtrl w = s.resetCore := by
  rw [State.writeCtrl, if_pos h]
  rfl

/-- A 0 in bit 2 of a write to STATUS keeps ERR and ERRCODE (10_state.md R32). -/
theorem State.writeStatus_error_kept (s : State) {w : Word} (h : w.getLsbD 2 = false) :
    (s.writeStatus w).err = s.err ∧ (s.writeStatus w).errcode = s.errcode := by
  rw [State.writeStatus_err, State.writeStatus_errcode, h]
  exact ⟨Bool.and_true _, rfl⟩

/-- A 1 in bit 2 of a write to STATUS clears ERR and ERRCODE (10_state.md R32). -/
theorem State.writeStatus_error_cleared (s : State) {w : Word} (h : w.getLsbD 2 = true) :
    (s.writeStatus w).err = false ∧ (s.writeStatus w).errcode = 0 := by
  rw [State.writeStatus_err, State.writeStatus_errcode, h]
  exact ⟨Bool.and_false _, rfl⟩

/-- STATUS as a number (10_state.md R31, R35). -/
theorem State.statusWord_toNat (s : State) :
    s.statusWord.toNat = (if s.inflight = .empty then 0 else 1) + 2 * s.done.toNat +
      4 * s.err.toNat + 8 * s.berr.toNat + 16 * s.errcode.toNat := by
  have hbusy : s.busy.toNat = if s.inflight = .empty then 0 else 1 := by
    unfold State.busy
    cases s.inflight <;> rfl
  rw [← hbusy]
  simp only [State.statusWord, toNat_append_add, BitVec.toNat_ofBool, BitVec.toNat_ofNat]
  omega

/-- CTRL as a number (10_state.md R33). -/
theorem State.ctrlWord_toNat (s : State) :
    s.ctrlWord.toNat = s.ieDone.toNat + 2 * s.ieErr.toNat + 4 * s.ieBerr.toNat := by
  simp only [State.ctrlWord, toNat_append_add, BitVec.toNat_ofBool, BitVec.toNat_ofNat]
  omega

/-- CTRL bit by bit: the three enables, 0 above them (10_state.md R33). -/
theorem State.ctrlWord_getLsbD (s : State) :
    s.ctrlWord.getLsbD 0 = s.ieDone ∧ s.ctrlWord.getLsbD 1 = s.ieErr ∧
      s.ctrlWord.getLsbD 2 = s.ieBerr ∧ ∀ b, 3 ≤ b → s.ctrlWord.getLsbD b = false := by
  simp only [State.ctrlWord, BitVec.getLsbD_append]
  refine ⟨by simp, by simp, by simp, fun b hb => ?_⟩
  rw [if_neg (by omega), if_neg (by omega), if_neg (by omega), BitVec.getLsbD_zero]

/-- The reset pin resets when it returns to 1 and else only takes the level
(70_reset_and_hazards.md R290). -/
theorem driveResetPin_cases (level : Bool) (s : State) :
    (level = true ∧ s.rstN = false ∧ driveResetPin level s = { s.resetCore with rstN := true }) ∨
      driveResetPin level s = { s with rstN := level } := by
  unfold driveResetPin
  cases level <;> cases s.rstN <;> simp

/-! ## What a step does to the status latch -/

/-- DONE, the error record and INFLIGHT are as they were, and BMEM is still canonical. -/
structure KeepsLatch (s t : State) : Prop where
  done : t.done = s.done
  err : t.err = s.err
  errcode : t.errcode = s.errcode
  errcmd : t.errcmd = s.errcmd
  inflight : t.inflight = s.inflight
  bmem_wf : s.bmem.wf → t.bmem.wf

/-- A change of any other field but BMEM keeps the latch. -/
theorem KeepsLatch.elsewhere {polys : PolyFile} {berr ieDone ieErr ieBerr rstN : Bool}
    {response : Option Response} {host : List HostAction} {turns : List Agent} :
    KeepsLatch s { s with
      polys := polys, berr := berr, ieDone := ieDone, ieErr := ieErr, ieBerr := ieBerr
      rstN := rstN, response := response, host := host, turns := turns } :=
  ⟨rfl, rfl, rfl, rfl, rfl, id⟩

theorem Safety.HostMoves.keepsLatch (m : HostMoves s a r) : KeepsLatch s r := by
  rw [m.rest]
  exact .elsewhere

theorem Safety.EngineMoves.keepsLatch (m : EngineMoves s r) : KeepsLatch s r := by
  rw [m.rest]
  exact .elsewhere

theorem KeepsLatch.trans (h : KeepsLatch s r) (k : KeepsLatch r t) : KeepsLatch s t :=
  ⟨k.done.trans h.done, k.err.trans h.err, k.errcode.trans h.errcode, k.errcmd.trans h.errcmd,
    k.inflight.trans h.inflight, k.bmem_wf ∘ h.bmem_wf⟩

theorem KeepsLatch.busy (h : KeepsLatch s t) : t.busy = s.busy := State.busy_congr h.inflight

/-- All that a step can do to the status latch. -/
inductive StepEffect (s t : State) : Prop where
  /-- Nothing: an idle turn, a read, a bus error, a write elsewhere, a level of the pin. -/
  | kept (k : KeepsLatch s t)
  /-- The reset clear completes (70_reset_and_hazards.md R296). -/
  | cleared (r : State) (m : EngineMoves s r) (clear : s.inflight = .clear)
      (next : t = { r with inflight := .empty })
  /-- A command completes (60_exceptions.md R254). -/
  | completed (r : State) (w : Word) (p : PolyFile) (b : Memory) (m : EngineMoves s r)
      (command : s.inflight = .command w) (wf : r.bmem.wf → b.wf)
      (next : t = State.complete { r with polys := p, bmem := b })
  /-- A word is submitted (60_exceptions.md R252). -/
  | submitted (r : State) (w : Word) (m : HostMoves s (.write 0x008 .b4 w) r)
      (next : t = { r.submit w with response := some .writeDone })
  /-- STATUS is written (10_state.md R32). -/
  | statusWritten (r : State) (w : Word) (m : HostMoves s (.write 0x00C .b4 w) r)
      (next : t = { r.writeStatus w with response := some .writeDone })
  /-- A reset of either kind (70_reset_and_hazards.md R292). -/
  | wasReset (r : State) (pin : Bool) (answer : Option Response) (m : ResetMove s)
      (next : t = { r.resetCore with rstN := pin, response := answer })

theorem keepsLatch_busRead (off : Offset) (size : Size) (r : State) :
    KeepsLatch r (busRead off size r) := by
  rcases busRead_cases off size r with ⟨-, h⟩ | ⟨_, -, h⟩ <;> rw [h] <;>
    exact .elsewhere

/-- The effect of a write that reaches a control register. -/
theorem stepEffect_writeCtrl (c : CtrlReg) {w : Word} (m : HostMoves s (.write c.offset .b4 w) r)
    (hrst : s.rstN = true) :
    StepEffect s { r.writeCtrlReg c w with response := some .writeDone } := by
  have quiet : StepEffect s { r with response := some .writeDone } :=
    .kept (m.keepsLatch.trans .elsewhere)
  cases c with
  | id => exact quiet
  | cfg => exact quiet
  | errcmd => exact quiet
  | cmd => exact .submitted r w m rfl
  | status => exact .statusWritten r w m rfl
  | ctrl =>
    simp only [State.writeCtrlReg]
    cases hw : w.getLsbD 31 with
    | false =>
      rw [State.writeCtrl_of_enables hw]
      exact .kept (m.keepsLatch.trans .elsewhere)
    | true =>
      rw [State.writeCtrl_of_srst hw]
      exact .wasReset r r.rstN _ (.inl ⟨r, w, m, hw, hrst⟩) rfl

/-- The effect of any write access. -/
theorem stepEffect_write {off : Offset} {size : Size} {w : Word}
    (m : HostMoves s (.write off size w) r) (hrst : s.rstN = true) :
    StepEffect s (busWrite off size w r) := by
  rcases busWrite_cases off size w r with ⟨-, h⟩ | ⟨target, hroute, h⟩ <;> rw [h]
  · exact .kept (m.keepsLatch.trans .elsewhere)
  · obtain ⟨aligned, ⟨-, rfl, c, rfl, hc⟩ | ⟨-, -, -, rfl⟩ | ⟨-, -, -, rfl⟩⟩ := route_cases hroute
    · obtain rfl := eq_offset_of_ctrlRegAt hc
      exact stepEffect_writeCtrl c m hrst
    · refine .kept (m.keepsLatch.trans ⟨by simp, by simp, by simp, by simp, by simp, fun wf => ?_⟩)
      simp only [State.writeTarget_bmem_bmem]
      exact Memory.writeBytes_wf wf _ (by rw [wordBytes_length]; exact bmem_range aligned)
    · exact .kept (m.keepsLatch.trans ⟨by simp, by simp, by simp, by simp, by simp, by simp⟩)

/-- The effect of the host's move. -/
theorem stepEffect_host (m : HostMoves s a r)
    (h : hostAct a r.host { r with host := a :: r.host } = .next t) : StepEffect s t := by
  rcases hostMove_eq_next h with ⟨level, rfl, rfl⟩ | ⟨-, off, size, rfl, rfl⟩ |
    ⟨hrst, off, size, w, rfl, rfl⟩ | ⟨-, rfl, rfl⟩
  · rcases driveResetPin_cases level r with ⟨rfl, hrst, h⟩ | h <;> rw [h]
    · exact .wasReset r true r.response (.inr ⟨r, m, m.rstN_eq.symm.trans hrst⟩) rfl
    · exact .kept (m.keepsLatch.trans .elsewhere)
  · exact .kept (m.keepsLatch.trans (keepsLatch_busRead off size r))
  · exact stepEffect_write m (m.rstN_eq.symm.trans hrst)
  · exact .kept (m.keepsLatch.trans .elsewhere)

/-- Every step that answers a next state has one of these effects. -/
theorem step_effect (h : step s = .next t) : StepEffect s t := by
  rcases step_eq_next h with ⟨r, m, ⟨hclear, ht⟩ | ⟨w, i, hw, -, hexec⟩⟩ | ⟨a, r, m, hact⟩ | ht
  · exact .cleared r m (m.inflight_eq.symm.trans hclear) ht
  · obtain ⟨p, b, ht, wf⟩ := exec_eq_next hexec
    exact .completed r w p b m (m.inflight_eq.symm.trans hw) wf ht
  · exact stepEffect_host m hact
  · rw [ht]
    exact .kept .elsewhere

/-! ## The invariant -/

/-- The invariant reads nothing but the status latch and BMEM. -/
theorem Safety.Inv.of_keepsLatch (inv : Inv s) (k : KeepsLatch s t) : Inv t where
  bmem_wf := k.bmem_wf inv.bmem_wf
  errcode_clear := by rw [k.err, k.errcode]; exact inv.errcode_clear
  errcode_set := by rw [k.err, k.errcode]; exact inv.errcode_set
  inflight_checked := by rw [k.inflight]; exact inv.inflight_checked
  busy_not_done := by rw [k.busy, k.done]; exact inv.busy_not_done

/-- With INFLIGHT empty, the two parts of the invariant about it are met. -/
theorem Safety.Inv.of_empty (wf : t.bmem.wf) (clear : t.err = false → t.errcode = 0)
    (recorded : t.err = true → t.errcode ∈ [1, 2, 3, 5]) (empty : t.inflight = .empty) : Inv t where
  bmem_wf := wf
  errcode_clear := clear
  errcode_set := recorded
  inflight_checked w hw := by rw [empty] at hw; cases hw
  busy_not_done hb := absurd empty (t.busy_eq_true_iff.1 hb)

/-- A rejection with one of the codes of 60_exceptions.md R258 keeps the invariant. -/
theorem Safety.Inv.reject (inv : Inv s) (w : Word) {code : BitVec 4} (hcode : code ∈ [1, 2, 3, 5]) :
    Inv (s.reject w code) where
  bmem_wf := inv.bmem_wf
  errcode_clear h := by cases h
  errcode_set _ := hcode
  inflight_checked := inv.inflight_checked
  busy_not_done := inv.busy_not_done

theorem Safety.Inv.submit (inv : Inv s) (w : Word) : Inv (s.submit w) := by
  rcases submit_cases s w with ⟨h, -⟩ | ⟨h, -, -⟩ | ⟨h, -, -, hcheck⟩ | ⟨h, -, -, hcheck⟩ <;> rw [h]
  · exact inv
  · exact inv.reject w (by decide)
  · have hcode : check w ∈ [1, 2, 3, 5] := by
      rcases check_cases w with h0 | h1 | h2 | h3
      · exact absurd h0 hcheck
      · simp [h1]
      · simp [h2]
      · simp [h3]
    exact inv.reject w hcode
  · exact {
      bmem_wf := inv.bmem_wf
      errcode_clear := inv.errcode_clear
      errcode_set := inv.errcode_set
      inflight_checked := fun v hv => by cases hv; exact hcheck
      busy_not_done := fun _ => rfl }

theorem Safety.Inv.writeStatus (inv : Inv s) (w : Word) : Inv (s.writeStatus w) where
  bmem_wf := inv.bmem_wf
  errcode_clear := by
    cases hw : w.getLsbD 2 with
    | false =>
      obtain ⟨herr, hcode⟩ := s.writeStatus_error_kept hw
      rw [herr, hcode]
      exact inv.errcode_clear
    | true => exact fun _ => (s.writeStatus_error_cleared hw).2
  errcode_set := by
    cases hw : w.getLsbD 2 with
    | false =>
      obtain ⟨herr, hcode⟩ := s.writeStatus_error_kept hw
      rw [herr, hcode]
      exact inv.errcode_set
    | true => rw [(s.writeStatus_error_cleared hw).1]; nofun
  inflight_checked := inv.inflight_checked
  busy_not_done hb := by
    have : s.done = false := inv.busy_not_done hb
    simp [this]

theorem Safety.Inv.resetCore (s : State) : Inv s.resetCore where
  bmem_wf := Memory.nil_wf
  errcode_clear _ := rfl
  errcode_set h := by cases h
  inflight_checked w hw := by cases hw
  busy_not_done _ := rfl

/-- Settles O51, by the effect of the step. -/
theorem stepKeepsTheInvariant : Obligations.StepKeepsTheInvariant := by
  unfold Obligations.StepKeepsTheInvariant
  intro s t inv h
  cases step_effect h with
  | kept k => exact inv.of_keepsLatch k
  | cleared r m _ next =>
    have invr := inv.of_keepsLatch m.keepsLatch
    subst next
    exact .of_empty invr.bmem_wf invr.errcode_clear invr.errcode_set rfl
  | completed r w p b m _ wf next =>
    have invr := inv.of_keepsLatch m.keepsLatch
    subst next
    exact .of_empty (wf invr.bmem_wf) invr.errcode_clear invr.errcode_set rfl
  | submitted r w m next =>
    have invr := (inv.of_keepsLatch m.keepsLatch).submit w
    exact invr.of_keepsLatch (by rw [next]; exact .elsewhere)
  | statusWritten r w m next =>
    have invr := (inv.of_keepsLatch m.keepsLatch).writeStatus w
    exact invr.of_keepsLatch (by rw [next]; exact .elsewhere)
  | wasReset r pin answer _ next =>
    exact (Inv.resetCore r).of_keepsLatch (by rw [next]; exact .elsewhere)

/-- Settles O52: the reset state is its own reset. -/
theorem resetMeetsTheInvariant : Obligations.ResetMeetsTheInvariant :=
  Inv.resetCore State.reset

/-! ## Safety of the status latch -/

/-- While ERR = 1 a submission is ignored, so the error record stands. -/
theorem State.submit_of_err (w : Word) (h : s.err = true) : s.submit w = s := if_pos h

/-- Settles O58: of the effects of a step only a write to STATUS and a reset touch the record. -/
theorem firstErrorIsKept : Obligations.FirstErrorIsKept := by
  unfold Obligations.FirstErrorIsKept
  intro s t h herr
  cases step_effect h with
  | kept k => exact .inl ⟨k.err.trans herr, k.errcode, k.errcmd⟩
  | cleared r m _ next =>
    have k := m.keepsLatch
    subst next
    exact .inl ⟨k.err.trans herr, k.errcode, k.errcmd⟩
  | completed r w p b m _ _ next =>
    have k := m.keepsLatch
    subst next
    exact .inl ⟨k.err.trans herr, k.errcode, k.errcmd⟩
  | submitted r w m next =>
    have k := m.keepsLatch
    rw [State.submit_of_err w (k.err.trans herr)] at next
    subst next
    exact .inl ⟨k.err.trans herr, k.errcode, k.errcmd⟩
  | statusWritten r w m next =>
    have k := m.keepsLatch
    subst next
    cases hw : w.getLsbD 2 with
    | false =>
      obtain ⟨hkeep, hcode⟩ := r.writeStatus_error_kept hw
      exact .inl ⟨hkeep.trans (k.err.trans herr), hcode.trans k.errcode, k.errcmd⟩
    | true =>
      obtain ⟨hclear, hcode⟩ := r.writeStatus_error_cleared hw
      exact .inr (.inl ⟨hclear, hcode, k.errcmd, r, w, m, hw⟩)
  | wasReset r pin answer m next =>
    subst next
    exact .inr (.inr ⟨rfl, rfl, rfl, m⟩)

/-- Settles O59: of the effects of a step only a submission and a reset write ERRCMD. -/
theorem errcmdHoldsTheRejectedWord : Obligations.ErrcmdHoldsTheRejectedWord := by
  unfold Obligations.ErrcmdHoldsTheRejectedWord
  intro s t h hne
  cases step_effect h with
  | kept k => exact absurd k.errcmd hne
  | cleared r m _ next => exact absurd (by rw [next]; exact m.keepsLatch.errcmd) hne
  | completed r w p b m _ _ next => exact absurd (by rw [next]; exact m.keepsLatch.errcmd) hne
  | statusWritten r w m next => exact absurd (by rw [next]; exact m.keepsLatch.errcmd) hne
  | wasReset r pin answer m next =>
    subst next
    exact .inr ⟨rfl, m⟩
  | submitted r w m next =>
    have k := m.keepsLatch
    rcases submit_cases r w with ⟨hs, -⟩ | ⟨hs, herr, hbusy⟩ | ⟨hs, herr, hbusy, -⟩ | ⟨hs, -⟩ <;>
      rw [hs] at next <;> subst next
    · exact absurd k.errcmd hne
    · exact .inl ⟨k.err.symm.trans herr, rfl, r, m, .inl ⟨k.busy.symm.trans hbusy, rfl⟩⟩
    · exact .inl ⟨k.err.symm.trans herr, rfl, r, m, .inr ⟨k.busy.symm.trans hbusy, rfl⟩⟩
    · exact absurd k.errcmd hne

/-- DONE becomes 1 only by the completion of a command (60_exceptions.md R254). -/
theorem done_set_by_completion (h : step s = .next t) (hs : s.done = false) (ht : t.done = true) :
    ∃ r w, EngineMoves s r ∧ s.inflight = .command w := by
  have unset : ∀ {u : State}, KeepsLatch s u → u.done ≠ true := fun k => by simp [k.done, hs]
  cases step_effect h with
  | kept k => exact absurd ht (unset k)
  | cleared r m _ next =>
    have hr := unset m.keepsLatch
    subst next
    exact absurd ht hr
  | completed r w p b m command _ _ => exact ⟨r, w, m, command⟩
  | submitted r w m next =>
    have hr := unset m.keepsLatch
    rcases submit_cases r w with ⟨hs, -⟩ | ⟨hs, -⟩ | ⟨hs, -⟩ | ⟨hs, -⟩ <;>
      rw [hs] at next <;> subst next
    · exact absurd ht hr
    · exact absurd ht hr
    · exact absurd ht hr
    · cases ht
  | statusWritten r w m next =>
    have hr := unset m.keepsLatch
    subst next
    exact absurd (Bool.and_eq_true_iff.1 ht).1 hr
  | wasReset r pin answer _ next => subst next; cases ht

/-- BUSY becomes 1 only by the acceptance of a checked word (60_exceptions.md R252) or by a reset. -/
theorem busy_set_by_acceptance_or_reset (h : step s = .next t) (hs : s.busy = false)
    (ht : t.busy = true) :
    (∃ r w, HostMoves s (.write 0x008 .b4 w) r ∧ check w = 0 ∧ s.err = false ∧
      t.inflight = .command w ∧ t.done = false) ∨ (ResetMove s ∧ t.inflight = .clear) := by
  have idle : ∀ {u : State}, KeepsLatch s u → u.busy ≠ true := fun k => by simp [k.busy, hs]
  cases step_effect h with
  | kept k => exact absurd ht (idle k)
  | cleared r m clear _ => rw [State.busy_eq_false_iff, clear] at hs; cases hs
  | completed r w p b m command _ _ => rw [State.busy_eq_false_iff, command] at hs; cases hs
  | submitted r w m next =>
    have k := m.keepsLatch
    have hr := idle k
    rcases submit_cases r w with ⟨hs, -⟩ | ⟨hs, -⟩ | ⟨hs, -⟩ | ⟨hs, herr, -, hcheck⟩ <;>
      rw [hs] at next <;> subst next
    · exact absurd ht hr
    · exact absurd ht hr
    · exact absurd ht hr
    · exact .inl ⟨r, w, m, hcheck, k.err.symm.trans herr, rfl, rfl⟩
  | statusWritten r w m next =>
    have hr := idle m.keepsLatch
    subst next
    exact absurd ht hr
  | wasReset r pin answer m next => subst next; exact .inr ⟨m, rfl⟩

/-- Settles O60, cause by cause. -/
theorem doneAndBusyHaveOneCauseEach : Obligations.DoneAndBusyHaveOneCauseEach := by
  unfold Obligations.DoneAndBusyHaveOneCauseEach
  exact fun s t h => ⟨done_set_by_completion h, busy_set_by_acceptance_or_reset h⟩

/-! ## The control registers as the host sees them -/

/-- Settles O14, by the reads and writes of ID and CFG. -/
theorem idAndCfgAreConstant : Obligations.IdAndCfgAreConstant := by
  unfold Obligations.IdAndCfgAreConstant
  intro s r hrst
  exact ⟨fun m => step_readCtrl .id m hrst, fun m => step_readCtrl .cfg m hrst,
    fun _ m => step_writeCtrl .id m hrst, fun _ m => step_writeCtrl .cfg m hrst⟩

/-- Settles O15, by the reads of the four registers and the write of ERRCMD. -/
theorem statusRegistersReadTheirFields : Obligations.StatusRegistersReadTheirFields := by
  unfold Obligations.StatusRegistersReadTheirFields
  intro s r hrst
  refine ⟨fun m => step_readCtrl .cmd m hrst, fun m => ?_, fun m => ?_, fun m => ?_,
    fun _ m => step_writeCtrl .errcmd m hrst⟩
  · refine ⟨_, step_readCtrl .status m hrst, ?_⟩
    rw [m.rest]
    exact s.statusWord_toNat
  · refine ⟨_, step_readCtrl .ctrl m hrst, ?_⟩
    rw [m.rest]
    exact s.ctrlWord_toNat
  · rw [← m.keepsLatch.errcmd]
    exact step_readCtrl .errcmd m hrst

/-- The W1C write of R32, each status bit by the bit of the word that clears it. -/
theorem State.writeStatus_eq (s : State) (w : Word) :
    s.writeStatus w = { s with
      done := if w.getLsbD 1 = true then false else s.done
      err := if w.getLsbD 2 = true then false else s.err
      errcode := if w.getLsbD 2 = true then 0 else s.errcode
      berr := if w.getLsbD 3 = true then false else s.berr } := by
  have clear : ∀ b c : Bool, (b && !c) = if c = true then false else b := by decide
  simp only [State.writeStatus, clear]

/-- Settles O16, by the write of STATUS. -/
theorem statusWriteClearsOnes : Obligations.StatusWriteClearsOnes := by
  unfold Obligations.StatusWriteClearsOnes
  intro s r w m hrst
  rw [step_writeCtrl .status m hrst, State.writeCtrlReg, State.writeStatus_eq]

/-- Settles O17, by the writes of CTRL without and with SRST and by its read. -/
theorem ctrlWriteSetsEnables : Obligations.CtrlWriteSetsEnables := by
  unfold Obligations.CtrlWriteSetsEnables
  intro s r hrst
  refine ⟨fun w m => ⟨fun hw => ?_, fun hw => ?_⟩, fun m => ?_⟩
  · rw [step_writeCtrl .ctrl m hrst, State.writeCtrlReg, State.writeCtrl_of_enables hw]
  · rw [step_writeCtrl .ctrl m hrst, State.writeCtrlReg, State.writeCtrl_of_srst hw]
    have hzero : State.reset.ctrlWord = 0 := rfl
    exact ⟨_, rfl, rfl, hzero⟩
  · refine ⟨_, step_readCtrl .ctrl m hrst, ?_⟩
    rw [m.rest]
    exact s.ctrlWord_getLsbD

/-- Settles O18: a disjunction of conjunctions, bit by bit. -/
theorem interruptLineIsALevel : Obligations.InterruptLineIsALevel := by
  unfold Obligations.InterruptLineIsALevel
  intro s
  simp only [State.irq, Bool.or_eq_true, Bool.and_eq_true, or_assoc]

/-! ## The reset state -/

/-- The first step from reset completes the reset clear (70_reset_and_hazards.md R296). -/
theorem step_reset : step State.reset = .next { State.reset with inflight := .empty } := rfl

/-- Settles O19: the reset clear changes only INFLIGHT, so all else is 0 before and after it. -/
theorem resetStateIsZeroAndBusy : Obligations.ResetStateIsZeroAndBusy := by
  unfold Obligations.ResetStateIsZeroAndBusy
  have zero : ∀ r k, (State.reset.poly r).coeff k = 0 := fun r k => by
    rw [State.reset_poly, Poly.coeff_zero]
  refine ⟨rfl, rfl, _, step_reset, rfl, rfl, fun u hu => ?_⟩
  simp only [List.mem_cons, List.not_mem_nil, or_false] at hu
  rcases hu with rfl | rfl
  · exact ⟨fun r k _ => zero r k, fun _ => rfl, rfl, rfl, rfl⟩
  · exact ⟨fun r k _ => zero r k, fun _ => rfl, rfl, rfl, rfl⟩

end Sys2Proof.Machine
end

-- The bus port (20_memory.md).
section
/-! SUPPORT. Where the address decoder sends an access, range by range, and what an access does there:
a bus error, bytes of BMEM, coefficients of a register, and nothing more when it is repeated. -/

namespace Sys2Proof.Machine

open Safety

variable {s r t : State} {off : Offset} {size : Size} {w : Word}

/-! ## What the turn taken off a state leaves -/

theorem Safety.HostMoves.polys_eq {a : HostAction} (m : HostMoves s a r) : r.polys = s.polys := by
  rw [m.rest]

theorem Safety.HostMoves.bmem_eq {a : HostAction} (m : HostMoves s a r) : r.bmem = s.bmem := by
  rw [m.rest]

theorem Safety.HostMoves.poly_eq {a : HostAction} (m : HostMoves s a r) (p : PReg) :
    r.poly p = s.poly p := by
  rw [State.poly, m.polys_eq, State.poly]

theorem Safety.HostMoves.busy_eq {a : HostAction} (m : HostMoves s a r) : r.busy = s.busy :=
  m.keepsLatch.busy

/-- A step at which the engine moves is the engine's turn from the state with that turn taken off. -/
theorem step_of_engineMoves (m : EngineMoves s r) : step s = engineTurn r := by
  obtain ⟨hturns | ⟨hturns, hr, hbusy⟩, rest⟩ := m
  · rw [step, hturns, rest]
  · have hs : r = s := by rw [rest, hr, ← hturns]
    rw [step, hturns, hs]
    exact if_pos hbusy

/-! ## The address decoder, range by range -/

/-- The aligned words below 0x18 are the six control registers (10_state.md section 4). -/
theorem ctrlRegAt_of_aligned {o : Nat} (aligned : o % 4 = 0) (lt : o < 0x18) :
    ∃ c, ctrlRegAt o = some c := by
  obtain rfl | rfl | rfl | rfl | rfl | rfl :
    o = 0x00 ∨ o = 0x04 ∨ o = 0x08 ∨ o = 0x0C ∨ o = 0x10 ∨ o = 0x14 := by omega
  all_goals exact ⟨_, rfl⟩

/-- The causes of a bus error (20_memory.md R63, R65, R66, R68, R69). -/
theorem route_eq_none_iff (busy : Bool) (off : Offset) (size : Size) :
    route busy off size = none ↔
      off.toNat % size.bytes ≠ 0 ∨ (off.toNat < 0x18 ∧ size ≠ .b4) ∨
        (0x18 ≤ off.toNat ∧ off.toNat < 0x2000) ∨ (0x2000 ≤ off.toNat ∧ busy = true) ∨
        (0x4000 ≤ off.toNat ∧ size = .b1) := by
  unfold route
  simp only
  split_ifs with misaligned isCtrl word reserved hbusy isBmem byte
  · exact iff_of_true rfl (.inl misaligned)
  · subst word
    obtain ⟨c, hc⟩ := ctrlRegAt_of_aligned (not_not.1 misaligned) isCtrl
    rw [hc]
    exact iff_of_false nofun (by grind)
  · exact iff_of_true rfl (.inr (.inl ⟨isCtrl, word⟩))
  · exact iff_of_true rfl (.inr (.inr (.inl ⟨by omega, reserved⟩)))
  · exact iff_of_true rfl (.inr (.inr (.inr (.inl ⟨by omega, hbusy⟩))))
  · exact iff_of_false nofun (by grind)
  · exact iff_of_true rfl (.inr (.inr (.inr (.inr ⟨by omega, byte⟩))))
  · exact iff_of_false nofun (by grind)

/-- A control register is reached at its own offset, by a word. -/
theorem offset_of_route_ctrl {busy : Bool} {c : CtrlReg}
    (h : route busy off size = some (.ctrl c)) : off = c.offset ∧ size = .b4 := by
  obtain ⟨-, ⟨-, hsize, c', hc, hat⟩ | ⟨-, -, -, h⟩ | ⟨-, -, -, h⟩⟩ := route_cases h
  · cases hc
    exact ⟨eq_offset_of_ctrlRegAt hat, hsize⟩
  · cases h
  · cases h

/-- While BUSY = 1 only the control registers are reached (20_memory.md R68). -/
theorem route_of_busy {target : Target} (h : route true off size = some target) :
    ∃ c, target = .ctrl c := by
  obtain ⟨-, ⟨-, -, c, hc, -⟩ | ⟨h, -⟩ | ⟨h, -⟩⟩ := route_cases h
  · exact ⟨c, hc⟩
  · cases h
  · cases h

/-- An aligned access at 0x2000 + a reaches B[a] while BUSY = 0 (20_memory.md R67). -/
theorem route_bmem {a : Nat} (aligned : a % size.bytes = 0) (lt : a < 0x2000) :
    route false (BitVec.ofNat 15 (0x2000 + a)) size = some (.bmem a) := by
  have ho : (BitVec.ofNat 15 (0x2000 + a)).toNat = 0x2000 + a := by
    rw [BitVec.toNat_ofNat]
    omega
  have haligned : (0x2000 + a) % size.bytes = 0 := by
    cases size <;> simp only [Size.bytes] at * <;> omega
  unfold route
  simp only [ho]
  rw [if_neg (by omega), if_neg (by omega), if_neg (by omega), if_neg (by decide),
    if_pos (by omega), show (0x2000 + a) % 0x2000 = a by omega]

/-- The offset of P[p][k] (20_memory.md R69). -/
theorem polyOffset_toNat (p : PReg) {k : Nat} (hk : k < 1024) :
    (BitVec.ofNat 15 (0x4000 + 0x800 * p.index + 2 * k)).toNat = 0x4000 + 0x800 * p.index + 2 * k := by
  have := p.index_lt
  rw [BitVec.toNat_ofNat]
  omega

/-- An aligned access of 2 or 4 bytes at the offset of P[p][k] reaches it while BUSY = 0
(20_memory.md R69). -/
theorem route_poly (p : PReg) {k : Nat} (hk : k < 1024) (aligned : 2 * k % size.bytes = 0)
    (wide : size ≠ .b1) :
    route false (BitVec.ofNat 15 (0x4000 + 0x800 * p.index + 2 * k)) size = some (.poly p k) := by
  have hreg : PReg.ofIndex ((0x4000 + 0x800 * p.index + 2 * k) / 0x800) = p := by
    rw [show (0x4000 + 0x800 * p.index + 2 * k) / 0x800 = 8 + p.index by omega]
    cases p <;> rfl
  have haligned : (0x4000 + 0x800 * p.index + 2 * k) % size.bytes = 0 := by
    cases size <;> simp only [Size.bytes] at * <;> omega
  unfold route
  simp only [polyOffset_toNat p hk]
  rw [if_neg (by omega), if_neg (by omega), if_neg (by omega), if_neg (by decide),
    if_neg (by omega), if_neg wide, hreg,
    show (0x4000 + 0x800 * p.index + 2 * k) / 2 % N = k by rw [N]; omega]

/-- A byte access to a polynomial register gets a bus error (20_memory.md R69). -/
theorem route_poly_byte (busy : Bool) (p : PReg) {k : Nat} (hk : k < 1024) :
    route busy (BitVec.ofNat 15 (0x4000 + 0x800 * p.index + 2 * k)) .b1 = none := by
  rw [route_eq_none_iff, polyOffset_toNat p hk]
  exact .inr (.inr (.inr (.inr ⟨by omega, rfl⟩)))

/-! ## The step of a bus access, refused or admitted -/

/-- A refused read answers the error response and sets BERR (20_memory.md R70). -/
theorem step_read_refused (m : HostMoves s (.read off size) r) (h : s.rstN = true)
    (hroute : route s.busy off size = none) :
    step s = .next { r with berr := true, response := some .readError } := by
  rw [step_read m h, busRead, m.busy_eq, hroute]
  rfl

/-- An admitted read answers what its target holds and changes nothing. -/
theorem step_read_admitted {target : Target} (m : HostMoves s (.read off size) r)
    (h : s.rstN = true) (hroute : route s.busy off size = some target) :
    step s = .next { r with response := some (.readData (r.readTarget size target)) } := by
  rw [step_read m h, busRead, m.busy_eq, hroute]

/-- A refused write answers the error response and sets BERR (20_memory.md R70). -/
theorem step_write_refused (m : HostMoves s (.write off size w) r) (h : s.rstN = true)
    (hroute : route s.busy off size = none) :
    step s = .next { r with berr := true, response := some .writeError } := by
  rw [step_write m h, busWrite, m.busy_eq, hroute]
  rfl

/-- An admitted write has its target's effect. -/
theorem step_write_admitted {target : Target} (m : HostMoves s (.write off size w) r)
    (h : s.rstN = true) (hroute : route s.busy off size = some target) :
    step s = .next { r.writeTarget size w target with response := some .writeDone } := by
  rw [step_write m h, busWrite, m.busy_eq, hroute]

/-- Settles O22, by the causes of a bus error. -/
theorem busErrorExactlyWhen : Obligations.BusErrorExactlyWhen := by
  unfold Obligations.BusErrorExactlyWhen
  intro s r off size hrst
  have refused := route_eq_none_iff s.busy off size
  refine ⟨fun m => ⟨fun bad => ?_, fun good => ?_⟩, fun w m => ⟨fun bad => ?_, fun good => ?_⟩, rfl⟩
  · exact step_read_refused m hrst (refused.2 bad)
  · obtain ⟨target, hroute⟩ := Option.ne_none_iff_exists'.1 (mt refused.1 good)
    exact ⟨_, step_read_admitted m hrst hroute⟩
  · exact step_write_refused m hrst (refused.2 bad)
  · obtain ⟨target, hroute⟩ := Option.ne_none_iff_exists'.1 (mt refused.1 good)
    exact ⟨_, step_write_admitted m hrst hroute, rfl⟩

/-! ## Bytes of BMEM -/

/-- Bytes as the number they form, the first in the least significant place (20_memory.md R64). -/
theorem bytesToNat_eq_sum (bs : List Byte) :
    bytesToNat bs = ∑ i ∈ Finset.range bs.length, (bs.getD i 0).toNat * 2 ^ (8 * i) := by
  induction bs with
  | nil => rfl
  | cons b bs ih =>
    rw [bytesToNat, ih, List.length_cons, Finset.sum_range_succ', Finset.mul_sum, add_comm]
    congr 1
    · refine Finset.sum_congr rfl fun i _ => ?_
      rw [List.getD_cons_succ, Nat.mul_succ, pow_add]
      ring
    · simp

theorem bytesToNat_lt (bs : List Byte) : bytesToNat bs < 256 ^ bs.length := by
  induction bs with
  | nil => exact Nat.one_pos
  | cons b bs ih =>
    have := b.isLt
    rw [bytesToNat, List.length_cons, pow_succ]
    omega

theorem Size.bytes_le (size : Size) : size.bytes ≤ 4 := by cases size <;> decide

/-- A read of BMEM returns its bytes in the order of R64. -/
theorem readTarget_bmem_toNat (s : State) (size : Size) (a : Nat) :
    (s.readTarget size (.bmem a)).toNat =
      ∑ i ∈ Finset.range size.bytes, (s.bmem.read (a + i)).toNat * 2 ^ (8 * i) := by
  have fits : bytesToNat (s.bmem.readBytes a size.bytes) < 2 ^ 32 := by
    have lt := bytesToNat_lt (s.bmem.readBytes a size.bytes)
    rw [Memory.readBytes_length] at lt
    exact lt.trans_le (Nat.pow_le_pow_right (by decide) size.bytes_le)
  rw [State.readTarget, BitVec.toNat_ofNat, Nat.mod_eq_of_lt fits, bytesToNat_eq_sum,
    Memory.readBytes_length]
  refine Finset.sum_congr rfl fun i hi => ?_
  rw [Memory.readBytes_getD _ _ (Finset.mem_range.1 hi)]

/-- Settles O23, by the decoder's answer at 0x2000 + a and the laws of a byte string written to
BMEM. -/
theorem bmemAccessesMoveBytes : Obligations.BmemAccessesMoveBytes := by
  unfold Obligations.BmemAccessesMoveBytes
  intro s r a size hrst hbusy aligned fits
  have hpos : 0 < size.bytes := by cases size <;> decide
  have hroute : route s.busy (BitVec.ofNat 15 (0x2000 + a)) size = some (.bmem a) := by
    rw [hbusy]
    exact route_bmem aligned (by omega)
  refine ⟨fun m => ⟨_, step_read_admitted m hrst hroute, ?_⟩, fun w m _ =>
    ⟨_, step_write_admitted m hrst hroute, fun i hi => ?_, fun b hb => ?_, rfl⟩⟩
  · rw [readTarget_bmem_toNat, m.bmem_eq]
  · simp only [State.writeTarget_bmem_bmem]
    rw [Memory.read_writeBytes_inside _ _ _ (by rwa [wordBytes_length]), wordBytes_getD w hi]
  · simp only [State.writeTarget_bmem_bmem]
    rw [Memory.read_writeBytes_of_outside _ _ _ (by rwa [wordBytes_length]), m.bmem_eq]

/-! ## Coefficients of the polynomial registers -/

/-- A 2-byte read returns the coefficient. -/
theorem readTarget_poly_half (s : State) (p : PReg) (k : Nat) :
    (s.readTarget .b2 (.poly p k)).toNat = (s.poly p).coeff k := by
  have lt := (s.poly p).coeff_lt k
  exact (BitVec.toNat_ofNat _ _).trans (Nat.mod_eq_of_lt (by omega))

/-- A 4-byte read returns the pair, the lower index in the lower half. -/
theorem readTarget_poly_word (s : State) (p : PReg) (k : Nat) :
    (s.readTarget .b4 (.poly p k)).toNat =
      (s.poly p).coeff k ||| (s.poly p).coeff (k + 1) <<< 16 := by
  have lo := (s.poly p).coeff_lt k
  have hi := (s.poly p).coeff_lt (k + 1)
  rw [Nat.lor_comm, ← Nat.shiftLeft_add_eq_or_of_lt lo, Nat.shiftLeft_eq, add_comm, mul_comm]
  exact (BitVec.toNat_ofNat _ _).trans (Nat.mod_eq_of_lt (by omega))

/-- A 2-byte write sets the coefficient to the low half of the data. -/
theorem writeTarget_poly_half (s : State) (w : Word) (p : PReg) (k : Nat) :
    s.writeTarget .b2 w (.poly p k) =
      s.setPoly p ((s.poly p).set k (w.extractLsb' 0 16)) := rfl

/-- A 4-byte write sets the pair to the halves of the data. -/
theorem writeTarget_poly_word (s : State) (w : Word) (p : PReg) (k : Nat) :
    s.writeTarget .b4 w (.poly p k) =
      s.setPoly p (((s.poly p).set k (w.extractLsb' 0 16)).set (k + 1) (w.extractLsb' 16 16)) := rfl

theorem lowHalf_toNat (w : Word) : (w.extractLsb' 0 16).toNat = w.toNat % 65536 := by
  rw [BitVec.extractLsb'_toNat, Nat.shiftRight_zero]

theorem highHalf_toNat (w : Word) : (w.extractLsb' 16 16).toNat = w.toNat / 65536 := by
  have := w.isLt
  rw [BitVec.extractLsb'_toNat, Nat.shiftRight_eq_div_pow]
  omega

/-- A write of a register as an admitted access: the other registers and every other field stay. -/
theorem setPoly_frame (m : HostMoves s (.write off size w) r) (p : PReg) (v : Poly) :
    let t := { r.setPoly p v with response := some .writeDone }
    t.poly p = v ∧ (∀ q, q ≠ p → t.poly q = s.poly q) ∧
      t = { r with polys := t.polys, response := some .writeDone } :=
  ⟨State.poly_setPoly_self r p v, fun q hq => (State.poly_setPoly_ne r v hq).trans (m.poly_eq q), rfl⟩

/-- Settles O24, by the decoder's answer at the offset of P[p][k] and the laws of setting
coefficients. -/
theorem polyAccessesMoveCoefficients : Obligations.PolyAccessesMoveCoefficients := by
  unfold Obligations.PolyAccessesMoveCoefficients
  intro s r p k hrst hbusy hk
  have half : route s.busy (BitVec.ofNat 15 (0x4000 + 0x800 * p.index + 2 * k)) .b2 =
      some (.poly p k) := by
    rw [hbusy]
    exact route_poly p hk (by simp [Size.bytes]) (by decide)
  have word (even : k % 2 = 0) :
      route s.busy (BitVec.ofNat 15 (0x4000 + 0x800 * p.index + 2 * k)) .b4 =
        some (.poly p k) := by
    rw [hbusy]
    exact route_poly p hk (by rw [Size.bytes]; omega) (by decide)
  refine ⟨fun m => ⟨_, step_read_admitted m hrst half, ?_⟩,
    fun even m => ⟨_, step_read_admitted m hrst (word even), ?_⟩,
    fun w m => ⟨_, step_write_admitted m hrst half, ?_⟩,
    fun w even m => ⟨_, step_write_admitted m hrst (word even), ?_⟩,
    fun m => step_read_refused m hrst (route_poly_byte _ p hk),
    fun w m => step_write_refused m hrst (route_poly_byte _ p hk)⟩
  · rw [readTarget_poly_half, m.poly_eq]
  · rw [readTarget_poly_word, m.poly_eq]
  · rw [writeTarget_poly_half, m.poly_eq]
    obtain ⟨self, others, frame⟩ := setPoly_frame m p ((s.poly p).set k (w.extractLsb' 0 16))
    refine ⟨?_, fun j hj => ?_, others, frame⟩ <;> rw [self]
    · rw [Poly.coeff_set_self _ _ hk, lowHalf_toNat]
    · rw [Poly.coeff_set_ne _ _ hj]
  · rw [writeTarget_poly_word, m.poly_eq]
    obtain ⟨self, others, frame⟩ := setPoly_frame m p
      (((s.poly p).set k (w.extractLsb' 0 16)).set (k + 1) (w.extractLsb' 16 16))
    refine ⟨?_, ?_, fun j hj hj' => ?_, others, frame⟩ <;> rw [self]
    · rw [Poly.coeff_set_ne _ _ (by omega), Poly.coeff_set_self _ _ hk, lowHalf_toNat]
    · rw [Poly.coeff_set_self _ _ (show k + 1 < 1024 by omega), highHalf_toNat]
    · rw [Poly.coeff_set_ne _ _ hj', Poly.coeff_set_ne _ _ hj]

/-! ## Repeated accesses (20_memory.md R71) -/

/-- A second write of a coefficient keeps nothing of the first. -/
theorem Poly.set_set (v : Poly) (k : Nat) (c d : Coeff) : (v.set k c).set k d = v.set k d := by
  simp only [Poly.set, List.set_set]

/-- Two writes of a coefficient with a write of another between them keep the later one. -/
theorem Poly.set_set_of_ne (v : Poly) {j k : Nat} (c d : Coeff) (h : j ≠ k) :
    ((v.set k c).set j d).set k c = (v.set k c).set j d := by
  simp only [Poly.set, List.set_comm d c h, List.set_set]

/-- A second write of a register keeps nothing of the first. -/
theorem State.setPoly_setPoly (s : State) (p : PReg) (u v : Poly) :
    (s.setPoly p u).setPoly p v = s.setPoly p v := by
  simp only [State.setPoly, PolyFile.set_set]

/-- A byte string written twice at one place is there once: the form of BMEM is canonical. -/
theorem Memory.writeBytes_writeBytes {m : Memory} (wf : m.wf) {a : Nat} {bs : List Byte}
    (fits : a + bs.length ≤ bmemSize) :
    (m.writeBytes a bs).writeBytes a bs = m.writeBytes a bs := by
  have once := Memory.writeBytes_wf wf bs fits
  refine Memory.ext_read (Memory.writeBytes_wf once bs fits) once fun b => ?_
  by_cases outside : b < a ∨ a + bs.length ≤ b
  · exact Memory.read_writeBytes_of_outside _ a bs outside
  · obtain ⟨i, rfl⟩ := Nat.exists_eq_add_of_le (show a ≤ b by omega)
    have inside : i < bs.length := by omega
    rw [Memory.read_writeBytes_inside _ a bs inside, Memory.read_writeBytes_inside _ a bs inside]

/-- The W1C write leaves no bit for the same write to clear again (10_state.md R32). -/
theorem State.writeStatus_writeStatus (s : State) (w : Word) :
    (s.writeStatus w).writeStatus w = s.writeStatus w := by
  simp only [State.writeStatus, Bool.and_assoc, Bool.and_self]
  split_ifs <;> rfl

/-- A write that is neither to CMD nor to CTRL with SRST = 1, the two exceptions of
20_memory.md R71. -/
def Target.Repeatable (w : Word) (target : Target) : Prop :=
  target ≠ .ctrl .cmd ∧ (target = .ctrl .ctrl → w.getLsbD 31 = false)

/-- A repeatable write leaves INFLIGHT, and BUSY with it, as it was. -/
theorem writeTarget_busy {target : Target} (h : target.Repeatable w) :
    (s.writeTarget size w target).busy = s.busy := by
  obtain ⟨notCmd, noReset⟩ := h
  refine State.busy_congr ?_
  cases target with
  | bmem a => exact State.writeTarget_bmem_inflight s size w a
  | poly p k => exact State.writeTarget_poly_inflight s size w p k
  | ctrl c =>
    cases c with
    | cmd => exact absurd rfl notCmd
    | ctrl => rw [State.writeTarget, State.writeCtrlReg, State.writeCtrl_of_enables (noReset rfl)]
    | id => rfl
    | cfg => rfl
    | status => rfl
    | errcmd => rfl

/-- The answer of an earlier access has no part in a repeatable write. -/
theorem writeTarget_response {target : Target} (h : target.Repeatable w) (x : Option Response) :
    State.writeTarget { s with response := x } size w target =
      { s.writeTarget size w target with response := x } := by
  obtain ⟨notCmd, noReset⟩ := h
  cases target with
  | bmem a => rfl
  | poly p k => rfl
  | ctrl c =>
    cases c with
    | cmd => exact absurd rfl notCmd
    | ctrl =>
      simp only [State.writeTarget, State.writeCtrlReg, State.writeCtrl_of_enables (noReset rfl)]
    | id => rfl
    | cfg => rfl
    | status => rfl
    | errcmd => rfl

/-- A repeatable write made twice has its effect once. -/
theorem writeTarget_writeTarget {busy : Bool} {target : Target} (wf : s.bmem.wf)
    (hroute : route busy off size = some target) (h : target.Repeatable w) :
    (s.writeTarget size w target).writeTarget size w target = s.writeTarget size w target := by
  obtain ⟨notCmd, noReset⟩ := h
  obtain ⟨aligned, ⟨-, -, c, rfl, -⟩ | ⟨-, -, -, rfl⟩ | ⟨-, -, wide, rfl⟩⟩ := route_cases hroute
  · cases c with
    | cmd => exact absurd rfl notCmd
    | ctrl =>
      simp only [State.writeTarget, State.writeCtrlReg, State.writeCtrl_of_enables (noReset rfl)]
    | status => exact s.writeStatus_writeStatus w
    | id => rfl
    | cfg => rfl
    | errcmd => rfl
  · have fits := bmem_range aligned
    generalize off.toNat % 0x2000 = a at fits ⊢
    simp only [State.writeTarget]
    rw [Memory.writeBytes_writeBytes wf (by rwa [wordBytes_length])]
  · generalize PReg.ofIndex (off.toNat / 0x800) = p
    generalize off.toNat / 2 % N = k
    cases size with
    | b1 => exact absurd rfl wide
    | b2 =>
      rw [writeTarget_poly_half, writeTarget_poly_half, State.poly_setPoly_self, Poly.set_set,
        State.setPoly_setPoly]
    | b4 =>
      rw [writeTarget_poly_word, writeTarget_poly_word, State.poly_setPoly_self,
        Poly.set_set_of_ne _ _ _ (Nat.succ_ne_self k), Poly.set_set, State.setPoly_setPoly]

/-- A repeated read is answered as the first and changes nothing more. -/
theorem busRead_busRead (off : Offset) (size : Size) (s : State) :
    busRead off size (busRead off size s) = busRead off size s := by
  rcases busRead_cases off size s with ⟨hroute, h⟩ | ⟨target, hroute, h⟩ <;>
    rw [h, busRead]
  · have hbusy : State.busy { s.busError with response := some .readError } = s.busy := rfl
    rw [hbusy, hroute]
    rfl
  · have hbusy : State.busy { s with response := some (.readData (s.readTarget size target)) } =
      s.busy := rfl
    rw [hbusy, hroute]
    cases target <;> rfl

/-- A repeated write to a repeatable target, or one that gets a bus error, changes nothing more. -/
theorem busWrite_busWrite (wf : s.bmem.wf)
    (h : ∀ target, route s.busy off size = some target → target.Repeatable w) :
    busWrite off size w (busWrite off size w s) = busWrite off size w s := by
  rcases busWrite_cases off size w s with ⟨hroute, hw⟩ | ⟨target, hroute, hw⟩ <;>
    rw [hw, busWrite]
  · have hbusy : State.busy { s.busError with response := some .writeError } = s.busy := rfl
    rw [hbusy, hroute]
    rfl
  · have rep := h target hroute
    have hbusy : State.busy { s.writeTarget size w target with response := some .writeDone } =
      s.busy := writeTarget_busy rep
    rw [hbusy, hroute]
    dsimp only
    rw [writeTarget_response rep (some .writeDone), writeTarget_writeTarget wf hroute rep]

/-- Settles O25: a control register is reached at its own offset by a word, so the two excluded
accesses are the only ones whose target is not repeatable. -/
theorem accessesAreIdempotent : Obligations.AccessesAreIdempotent := by
  unfold Obligations.AccessesAreIdempotent
  intro s off size wf
  refine ⟨busRead_busRead off size s, fun w notCmd noReset =>
    busWrite_busWrite wf fun target hroute => ⟨?_, ?_⟩⟩
  · rintro rfl
    obtain ⟨rfl, rfl⟩ := offset_of_route_ctrl hroute
    exact notCmd ⟨rfl, rfl⟩
  · rintro rfl
    obtain ⟨rfl, rfl⟩ := offset_of_route_ctrl hroute
    exact Bool.eq_false_iff.2 fun hw => noReset ⟨rfl, rfl, hw⟩

end Sys2Proof.Machine
end

-- Who changes P and BMEM, and who sees them (20_memory.md R60, R68).
section
/-! SUPPORT. `DataEffect`: what a step does to P and BMEM, said once; and, action by action, that the
host's move while BUSY = 1 neither shows them nor depends on them. -/

namespace Sys2Proof.Machine

open Safety

variable {s r t : State} {off : Offset} {size : Size} {w : Word}

/-! ## Causes of a change of P and BMEM -/

/-- P and BMEM are as they were. -/
structure KeepsData (s t : State) : Prop where
  polys : t.polys = s.polys
  bmem : t.bmem = s.bmem

theorem Safety.HostMoves.keepsData {a : HostAction} (m : HostMoves s a r) : KeepsData s r :=
  ⟨m.polys_eq, m.bmem_eq⟩

theorem Safety.EngineMoves.keepsData (m : EngineMoves s r) : KeepsData s r := by
  rw [m.rest]
  exact ⟨rfl, rfl⟩

theorem KeepsData.trans (h : KeepsData s r) (k : KeepsData r t) : KeepsData s t :=
  ⟨k.polys.trans h.polys, k.bmem.trans h.bmem⟩

theorem keepsData_busRead (off : Offset) (size : Size) (r : State) :
    KeepsData r (busRead off size r) := by
  rcases busRead_cases off size r with ⟨-, h⟩ | ⟨_, -, h⟩ <;> rw [h] <;> exact ⟨rfl, rfl⟩

/-- A submission changes no data (60_exceptions.md R262). -/
theorem keepsData_submit (r : State) (w : Word) : KeepsData r (r.submit w) := by
  rcases submit_cases r w with ⟨h, -⟩ | ⟨h, -⟩ | ⟨h, -⟩ | ⟨h, -⟩ <;> rw [h] <;> exact ⟨rfl, rfl⟩

/-- Of the writes to a control register only a soft reset changes data. -/
theorem keepsData_writeCtrlReg (c : CtrlReg) (h : c = .ctrl → w.getLsbD 31 = false) :
    KeepsData r (r.writeCtrlReg c w) := by
  cases c with
  | cmd => exact keepsData_submit r w
  | ctrl => rw [State.writeCtrlReg, State.writeCtrl_of_enables (h rfl)]; exact ⟨rfl, rfl⟩
  | status => exact ⟨rfl, rfl⟩
  | id => exact ⟨rfl, rfl⟩
  | cfg => exact ⟨rfl, rfl⟩
  | errcmd => exact ⟨rfl, rfl⟩

/-- All that a step can do to P and BMEM. -/
inductive DataEffect (s t : State) : Prop where
  /-- Nothing. -/
  | kept (k : KeepsData s t)
  /-- A command completes (60_exceptions.md R254). -/
  | completed (r : State) (w : Word) (m : EngineMoves s r) (command : s.inflight = .command w)
      (empty : t.inflight = .empty) (done : t.done = true)
  /-- The host writes to the data range while BUSY = 0 (20_memory.md R68). -/
  | written (r : State) (off : Offset) (size : Size) (w : Word)
      (m : HostMoves s (.write off size w) r) (range : 0x2000 ≤ off.toNat) (idle : s.busy = false)
  /-- A reset of either kind (70_reset_and_hazards.md R292). -/
  | wasReset (m : ResetMove s)

theorem dataEffect_write (m : HostMoves s (.write off size w) r) (hrst : s.rstN = true) :
    DataEffect s (busWrite off size w r) := by
  rcases busWrite_cases off size w r with ⟨-, h⟩ | ⟨target, hroute, h⟩ <;> rw [h]
  · exact .kept (m.keepsData.trans ⟨rfl, rfl⟩)
  · rw [m.busy_eq] at hroute
    obtain ⟨-, ⟨-, -, c, rfl, -⟩ | ⟨idle, range, -, rfl⟩ | ⟨idle, range, -, rfl⟩⟩ :=
      route_cases hroute
    · by_cases hreset : c = .ctrl ∧ w.getLsbD 31 = true
      · obtain ⟨rfl, hw⟩ := hreset
        obtain ⟨rfl, rfl⟩ := offset_of_route_ctrl hroute
        exact .wasReset (.inl ⟨r, w, m, hw, hrst⟩)
      · have k : KeepsData r (r.writeCtrlReg c w) :=
          keepsData_writeCtrlReg c fun hc => Bool.eq_false_iff.2 fun hw => hreset ⟨hc, hw⟩
        exact .kept (m.keepsData.trans ⟨k.polys, k.bmem⟩)
    · exact .written r off size w m range idle
    · exact .written r off size w m (le_trans (by decide) range) idle

/-- Every step that answers a next state has one of these effects. -/
theorem step_dataEffect (h : step s = .next t) : DataEffect s t := by
  rcases step_eq_next h with ⟨r, m, ⟨-, rfl⟩ | ⟨w, i, hw, -, hexec⟩⟩ | ⟨a, r, m, hact⟩ | ht
  · exact .kept (m.keepsData.trans ⟨rfl, rfl⟩)
  · obtain ⟨p, b, rfl, -⟩ := exec_eq_next hexec
    exact .completed r w m (m.inflight_eq.symm.trans hw) rfl rfl
  · rcases hostMove_eq_next hact with ⟨level, rfl, rfl⟩ | ⟨-, off, size, rfl, rfl⟩ |
      ⟨hrst, off, size, w, rfl, rfl⟩ | ⟨-, rfl, rfl⟩
    · rcases driveResetPin_cases level r with ⟨rfl, hrst, -⟩ | h
      · exact .wasReset (.inr ⟨r, m, m.rstN_eq.symm.trans hrst⟩)
      · rw [h]
        exact .kept (m.keepsData.trans ⟨rfl, rfl⟩)
    · exact .kept (m.keepsData.trans (keepsData_busRead off size r))
    · exact dataEffect_write m (m.rstN_eq.symm.trans hrst)
    · exact .kept (m.keepsData.trans ⟨rfl, rfl⟩)
  · rw [ht]
    exact .kept ⟨rfl, rfl⟩

/-- Settles O55, by the effect of the step on the data. -/
theorem dataChangesOnlyByThreeCauses : Obligations.DataChangesOnlyByThreeCauses := by
  unfold Obligations.DataChangesOnlyByThreeCauses
  intro s t h changed
  cases step_dataEffect h with
  | kept k => exact changed.elim (absurd k.polys) (absurd k.bmem)
  | completed r w m command empty done => exact .inl ⟨r, w, m, command, empty, done⟩
  | written r off size w m range idle => exact .inr (.inl ⟨r, off, size, w, m, range, idle⟩)
  | wasReset m => exact .inr (.inr m)

/-! ## Data hidden while BUSY = 1 (20_memory.md R68) -/

/-- The same state with other data in P and BMEM. -/
def State.withData (s : State) (p : PolyFile) (b : Memory) : State := { s with polys := p, bmem := b }

theorem sameButData_withData (s : State) (p : PolyFile) (b : Memory) :
    SameButData s (s.withData p b) := rfl

theorem Safety.SameButData.exists_withData {s' : State} (h : SameButData s s') :
    ∃ p b, s' = s.withData p b := ⟨s'.polys, s'.bmem, h⟩

/-- The move of the host is the same with other data. -/
theorem Safety.HostMoves.withData {a : HostAction} (m : HostMoves s a r) (p : PolyFile)
    (b : Memory) : HostMoves (s.withData p b) a (r.withData p b) where
  turn := m.turn
  action := m.action
  rest := congrArg (·.withData p b) m.rest

/-- No read of a control register looks at the data. -/
theorem readCtrl_withData (c : CtrlReg) (p : PolyFile) (b : Memory) :
    (s.withData p b).readCtrl c = s.readCtrl c := by cases c <;> rfl

theorem submit_withData (w : Word) (p : PolyFile) (b : Memory) :
    (s.withData p b).submit w = (s.submit w).withData p b := by
  have herr : (s.withData p b).err = s.err := rfl
  have hbusy : (s.withData p b).busy = s.busy := rfl
  rw [State.submit, State.submit, herr, hbusy]
  split_ifs <;> rfl

/-- A write to a control register does outside the data what it does with other data. -/
theorem writeCtrlReg_withData (c : CtrlReg) (w : Word) (p : PolyFile) (b : Memory) :
    SameButData (s.writeCtrlReg c w) ((s.withData p b).writeCtrlReg c w) := by
  cases c with
  | cmd =>
    rw [State.writeCtrlReg, State.writeCtrlReg, submit_withData]
    exact sameButData_withData _ p b
  | ctrl =>
    rw [State.writeCtrlReg, State.writeCtrlReg]
    cases hw : w.getLsbD 31 with
    | false => rw [State.writeCtrl_of_enables hw, State.writeCtrl_of_enables hw]; rfl
    | true => rw [State.writeCtrl_of_srst hw, State.writeCtrl_of_srst hw]; rfl
  | status => rfl
  | id => rfl
  | cfg => rfl
  | errcmd => rfl

/-- While BUSY = 1 a read answers the same and leaves the same with other data. -/
theorem busRead_withData (hbusy : r.busy = true) (off : Offset) (size : Size) (p : PolyFile)
    (b : Memory) : SameButData (busRead off size r) (busRead off size (r.withData p b)) := by
  have hbusy' : (r.withData p b).busy = true := hbusy
  rw [busRead, busRead, hbusy, hbusy']
  cases hroute : route true off size with
  | none => rfl
  | some target =>
    obtain ⟨c, rfl⟩ := route_of_busy hroute
    simp only [State.readTarget, readCtrl_withData]
    rfl

/-- While BUSY = 1 a write answers the same and leaves the same with other data. -/
theorem busWrite_withData (hbusy : r.busy = true) (off : Offset) (size : Size) (w : Word)
    (p : PolyFile) (b : Memory) :
    SameButData (busWrite off size w r) (busWrite off size w (r.withData p b)) := by
  have hbusy' : (r.withData p b).busy = true := hbusy
  rw [busWrite, busWrite, hbusy, hbusy']
  cases hroute : route true off size with
  | none => rfl
  | some target =>
    obtain ⟨c, rfl⟩ := route_of_busy hroute
    exact congrArg (fun u : State => { u with response := some .writeDone })
      (writeCtrlReg_withData (s := r) c w p b)

/-- The reset pin does outside the data what it does with other data. -/
theorem driveResetPin_withData (level : Bool) (p : PolyFile) (b : Memory) :
    SameButData (driveResetPin level r) (driveResetPin level (r.withData p b)) := by
  have hrst : (r.withData p b).rstN = r.rstN := rfl
  rw [driveResetPin, driveResetPin, hrst]
  split <;> rfl

/-- Settles O56, action by action. -/
theorem busyHidesTheData : Obligations.BusyHidesTheData := by
  unfold Obligations.BusyHidesTheData
  intro s s' r a same hbusy m t h
  obtain ⟨p, b, rfl⟩ := same.exists_withData
  have m' := m.withData p b
  have busyr : r.busy = true := m.busy_eq.trans hbusy
  rw [step_of_hostMoves m] at h
  rcases hostMove_eq_next h with ⟨level, rfl, rfl⟩ | ⟨hrst, off, size, rfl, rfl⟩ |
    ⟨hrst, off, size, w, rfl, rfl⟩ | ⟨hrst, rfl, rfl⟩
  · exact ⟨_, step_of_hostMoves m', driveResetPin_withData level p b⟩
  · exact ⟨_, step_read m' (m.rstN_eq.symm.trans hrst), busRead_withData busyr off size p b⟩
  · exact ⟨_, step_write m' (m.rstN_eq.symm.trans hrst), busWrite_withData busyr off size w p b⟩
  · refine ⟨_, (step_of_hostMoves m').trans (if_pos hrst), ?_⟩
    rw [busRead, route_status]
    rfl

end Sys2Proof.Machine
end

-- A command placed in INFLIGHT, and the window in the host's address space.
section
/-! SUPPORT. The word that `withFetchWord` places and the step that runs it (log 4); host addresses
and offsets (92_eei_decisions.md D44). -/

namespace Sys2Proof.Machine

open Safety

variable {s : State} {w : Word}

/-- A table word decodes as the 32-bit word of its bits. -/
theorem decode_of_decodeTableWord {nbits n : Nat} {i : Instr} (h : decodeTableWord nbits n = some i) :
    decode (BitVec.ofNat 32 (n % 2 ^ nbits)) = .ok i := by
  unfold decodeTableWord at h
  split at h
  · split at h
    · rw [← Option.some.inj h]
      assumption
    · cases h
  · cases h

/-- The step after a word is placed is the engine's (log 4). -/
theorem engineMoves_withFetchWord (s : State) (nbits n : Nat) :
    EngineMoves (s.withFetchWord nbits n)
      { s with inflight := .command (BitVec.ofNat 32 (n % 2 ^ nbits)) } where
  turn := .inl rfl
  rest := rfl

/-- A command in flight that decodes is run by the engine's turn (60_exceptions.md R254). -/
theorem engineTurn_of_decode {i : Instr} (hw : s.inflight = .command w) (hi : decode w = .ok i) :
    engineTurn s = exec i s := by
  simp only [engineTurn, hw, hi]

/-- Settles O9: the next turn is the engine's and INFLIGHT holds the placed word. -/
theorem placedCommandRunsNext : Obligations.PlacedCommandRunsNext := by
  unfold Obligations.PlacedCommandRunsNext
  intro s nbits n i h
  rw [step_of_engineMoves (engineMoves_withFetchWord s nbits n)]
  exact engineTurn_of_decode rfl (decode_of_decodeTableWord h)

/-- Settles O26: an offset is below 0x8000 and its distance from the base is the offset. -/
theorem windowAddressesAreBasePlusOffset : Obligations.WindowAddressesAreBasePlusOffset := by
  unfold Obligations.WindowAddressesAreBasePlusOffset
  refine fun base => ⟨fun off => ?_, fun addr off h => ?_⟩
  · have := off.isLt
    rw [windowOffset, hostAddress, if_pos (by omega), Nat.add_sub_cancel_left, BitVec.ofNat_toNat,
      BitVec.setWidth_eq]
  · unfold windowOffset at h
    split_ifs at h with inside
    rw [← Option.some.inj h, hostAddress, BitVec.toNat_ofNat]
    omega

end Sys2Proof.Machine
end

-- The command word (30_encoding.md).
section
/-! SUPPORT. The decoder and CHECK, each said once as an equation over `TakesFields` and
`ReservedClear`, from which the statements about the encoding follow without a case per command. -/

namespace Sys2Proof

variable {w : Word} {i : Instr}

/-! ## The fields a command uses (30_encoding.md R95, R96) -/

/-- The RD operand, none for a command that does not use the field. -/
def Instr.rdOperand : Instr → Option PReg
  | .nop | .bzero | .reconcile _ _ _ | .hpack _ _ => none
  | .pzero d | .pcopy d _ | .preduce d _ | .pfreeze d _ | .pflipabs d _ | .padd d _ _ | .psub d _ _
  | .pmul d _ _ | .ntt d _ | .intt d _ | .noise d _ | .helprec d _ _ | .hunpack d _ => some d

/-- The RS1 operand, none for a command that does not use the field. -/
def Instr.rs1Operand : Instr → Option PReg
  | .nop | .pzero _ | .bzero | .noise _ _ | .hunpack _ _ => none
  | .pcopy _ s | .preduce _ s | .pfreeze _ s | .pflipabs _ s | .padd _ s _ | .psub _ s _
  | .pmul _ s _ | .ntt _ s | .intt _ s | .helprec _ s _ | .reconcile s _ _ | .hpack s _ => some s

/-- The RS2 operand, none for a command that does not use the field. -/
def Instr.rs2Operand : Instr → Option PReg
  | .padd _ _ t | .psub _ _ t | .pmul _ _ t | .reconcile _ t _ => some t
  | .nop | .pzero _ | .pcopy _ _ | .bzero | .preduce _ _ | .pfreeze _ _ | .pflipabs _ _ | .ntt _ _
  | .intt _ _ | .noise _ _ | .helprec _ _ _ | .hpack _ _ | .hunpack _ _ => none

/-- The commands that use BOFF are those with a byte range. -/
def Instr.usesBoff (i : Instr) : Bool := decide (0 < i.byteCount)

/-- A register field: 0 when the command does not use it (30_encoding.md R95). -/
def regField (o : Option PReg) : BitVec 3 := o.elim 0 PReg.field

theorem Instr.boff_eq_zero (h : i.usesBoff = false) : i.boff = 0 := by
  cases i <;> simp_all [usesBoff, byteCount, boff]

theorem encode_eq_packFields (i : Instr) :
    encode i = packFields i.opc (regField i.rdOperand) (regField i.rs1Operand)
      (regField i.rs2Operand) i.boff := by
  cases i <;> rfl

/-- `i` is the command of the row of `w`'s OPC, each operand read from its field of `w`. -/
structure TakesFields (w : Word) (i : Instr) : Prop where
  opc : opcField w = i.opc
  rd : ∀ r, i.rdOperand = some r → rdOf w = r
  rs1 : ∀ r, i.rs1Operand = some r → rs1Of w = r
  rs2 : ∀ r, i.rs2Operand = some r → rs2Of w = r
  boff : i.usesBoff = true → boffField w = i.boff

/-- RSVD and every field of `w` that `i` does not use are 0 (30_encoding.md R93, R95). -/
abbrev ReservedClear (w : Word) (i : Instr) : Prop :=
  rsvdField w = 0 ∧ (i.rdOperand.isSome = false → rdField w = 0) ∧
    (i.rs1Operand.isSome = false → rs1Field w = 0) ∧
    (i.rs2Operand.isSome = false → rs2Field w = 0) ∧ (i.usesBoff = false → boffField w = 0)

/-! ## The word of a command -/

/-- A word is packed from six fields exactly if it has these fields and RSVD = 0. -/
theorem packFields_eq_iff {opc : BitVec 6} {rd rs1 rs2 : BitVec 3} {o : BOff} :
    packFields opc rd rs1 rs2 o = w ↔ opcField w = opc ∧ rdField w = rd ∧ rs1Field w = rs1 ∧
      rs2Field w = rs2 ∧ boffField w = o ∧ rsvdField w = 0 := by
  constructor
  · rintro rfl
    simp
  · rintro ⟨rfl, rfl, rfl, rfl, rfl, h⟩
    exact packFields_fields w h

/-- A field holds an operand's register, or 0 where there is no operand. -/
theorem eq_regField_iff (f : BitVec 3) (o : Option PReg) :
    f = regField o ↔ (∀ r, o = some r → PReg.ofIndex f.toNat = r) ∧ (o.isSome = false → f = 0) := by
  cases o with
  | none => simp [regField]
  | some r =>
    have hr : f = r.field ↔ PReg.ofIndex f.toNat = r :=
      ⟨fun h => by rw [h, PReg.ofIndex_field], fun h => by rw [← h, PReg.field_ofIndex]⟩
    simpa [regField] using hr

theorem eq_boff_iff (f : BOff) (i : Instr) :
    f = i.boff ↔ (i.usesBoff = true → f = i.boff) ∧ (i.usesBoff = false → f = 0) := by
  cases h : i.usesBoff with
  | true => simp
  | false => simp [Instr.boff_eq_zero h]

/-- A word is the encoding of a command exactly if its used fields are the operands and the other
fields are 0 (30_encoding.md R101). -/
theorem encode_eq_iff : encode i = w ↔ TakesFields w i ∧ ReservedClear w i := by
  rw [encode_eq_packFields, packFields_eq_iff, eq_regField_iff, eq_regField_iff, eq_regField_iff,
    eq_boff_iff]
  constructor
  · rintro ⟨opc, ⟨rd, rd'⟩, ⟨rs1, rs1'⟩, ⟨rs2, rs2'⟩, ⟨boff, boff'⟩, rsvd⟩
    exact ⟨⟨opc, rd, rs1, rs2, boff⟩, rsvd, rd', rs1', rs2', boff'⟩
  · rintro ⟨⟨opc, rd, rs1, rs2, boff⟩, rsvd, rd', rs1', rs2', boff'⟩
    exact ⟨opc, ⟨rd, rd'⟩, ⟨rs1, rs1'⟩, ⟨rs2, rs2'⟩, ⟨boff, boff'⟩, rsvd⟩

/-! ## The decoder -/

/-- All that `accept` can answer. -/
theorem accept_eq (w : Word) (a b c d : Bool) (i : Instr) :
    accept w a b c d i =
      if rsvdField w = 0 ∧ (a = false → rdField w = 0) ∧ (b = false → rs1Field w = 0) ∧
          (c = false → rs2Field w = 0) ∧ (d = false → boffField w = 0) then
        if wellFormed i then .ok i else .error .bmemRange
      else .error .reservedField := by
  unfold accept
  split_ifs <;> simp_all

/-- The arms of the decoder differ only in the command and in the flags of the fields it uses. -/
theorem TakesFields.decode_eq_accept (h : TakesFields w i) :
    decode w = accept w i.rdOperand.isSome i.rs1Operand.isSome i.rs2Operand.isSome i.usesBoff i := by
  obtain ⟨opc, rd, rs1, rs2, boff⟩ := h
  unfold decode
  rw [opc]
  cases i <;>
    simp_all [Instr.opc, Instr.rdOperand, Instr.rs1Operand, Instr.rs2Operand, Instr.usesBoff,
      Instr.byteCount, Instr.boff]

/-- The decoder's answer on a word whose OPC is in the opcode map (30_encoding.md R98). -/
theorem TakesFields.decode_eq (h : TakesFields w i) :
    decode w = if ReservedClear w i then if wellFormed i then .ok i else .error .bmemRange
      else .error .reservedField := by
  rw [h.decode_eq_accept, accept_eq]

/-- The commands of the opcode map with their operands read from `w`, row for row (30_encoding.md
R96). -/
def rowCommands (w : Word) : List Instr :=
  [.nop, .pzero (rdOf w), .pcopy (rdOf w) (rs1Of w), .bzero, .preduce (rdOf w) (rs1Of w),
   .pfreeze (rdOf w) (rs1Of w), .pflipabs (rdOf w) (rs1Of w), .padd (rdOf w) (rs1Of w) (rs2Of w),
   .psub (rdOf w) (rs1Of w) (rs2Of w), .pmul (rdOf w) (rs1Of w) (rs2Of w),
   .ntt (rdOf w) (rs1Of w), .intt (rdOf w) (rs1Of w), .noise (rdOf w) (boffField w),
   .helprec (rdOf w) (rs1Of w) (boffField w), .reconcile (rs1Of w) (rs2Of w) (boffField w),
   .hpack (rs1Of w) (boffField w), .hunpack (rdOf w) (boffField w)]

/-- They stand in the order of the rows of the opcode map. -/
theorem map_opc_rowCommands (w : Word) :
    (rowCommands w).map (fun i => i.opc.toNat) = opTable.map OpRow.opc := rfl

/-- Each of them takes its operands from the fields of `w`. -/
theorem operands_of_mem_rowCommands : ∀ i ∈ rowCommands w,
    (∀ r, i.rdOperand = some r → rdOf w = r) ∧ (∀ r, i.rs1Operand = some r → rs1Of w = r) ∧
      (∀ r, i.rs2Operand = some r → rs2Of w = r) ∧ (i.usesBoff = true → boffField w = i.boff) := by
  simp [rowCommands, Instr.rdOperand, Instr.rs1Operand, Instr.rs2Operand, Instr.usesBoff,
    Instr.byteCount, Instr.boff]

/-- A word takes the form of the command of its OPC, unless the opcode map has no such OPC
(30_encoding.md R96, R97). -/
theorem takesFields_or_opc_unmapped (w : Word) :
    (∃ i, TakesFields w i) ∨ ∀ r ∈ opTable, r.opc ≠ (opcField w).toNat := by
  by_cases hmem : (opcField w).toNat ∈ opTable.map OpRow.opc
  · rw [← map_opc_rowCommands w] at hmem
    obtain ⟨i, hi, hopc⟩ := List.mem_map.1 hmem
    obtain ⟨rd, rs1, rs2, boff⟩ := operands_of_mem_rowCommands i hi
    exact .inl ⟨i, BitVec.eq_of_toNat_eq hopc.symm, rd, rs1, rs2, boff⟩
  · exact .inr fun r hr hopc => hmem (hopc ▸ List.mem_map_of_mem hr)

/-- The decoder's answer on any other word (30_encoding.md R97). -/
theorem decode_eq_illegalOpcode (h : ∀ r ∈ opTable, r.opc ≠ (opcField w).toNat) :
    decode w = .error .illegalOpcode := by
  unfold decode
  split
  case h_18 => rfl
  all_goals
    rename_i hopc
    rw [hopc] at h
    exact absurd h (by decide)

/-- A word decodes to a command exactly if it is the command's word and its byte range fits. -/
theorem decode_eq_ok_iff : decode w = .ok i ↔ encode i = w ∧ wellFormed i = true := by
  rw [encode_eq_iff]
  constructor
  · intro hd
    obtain ⟨j, hj⟩ | unmapped := takesFields_or_opc_unmapped w
    · rw [hj.decode_eq] at hd
      split_ifs at hd with clear wf
      obtain rfl := Except.ok.inj hd
      exact ⟨⟨hj, clear⟩, wf⟩
    · rw [decode_eq_illegalOpcode unmapped] at hd
      cases hd
  · rintro ⟨⟨hi, clear⟩, wf⟩
    rw [hi.decode_eq, if_pos clear, if_pos wf]

/-! ## CHECK (60_exceptions.md R256) -/

/-- The mask of a field: all ones where the field is to be 0, and 0 where the command uses it. -/
def fieldMask (used : Bool) (n : Nat) : BitVec n := if used then 0 else BitVec.allOnes n

theorem and_fieldMask_eq_zero_iff {n : Nat} (f : BitVec n) (used : Bool) :
    f &&& fieldMask used n = 0 ↔ (used = false → f = 0) := by
  cases used <;> simp [fieldMask]

/-- `r` is the row of the opcode map that `i` belongs to: its pattern has the OPC of `i`, its mask
covers OPC, RSVD and the fields that `i` does not use, and its byte count is that of `i`. -/
structure OpRow.Describes (r : OpRow) (i : Instr) : Prop where
  pattern : r.pattern = packFields i.opc 0 0 0 0
  opc : opcField r.mask = BitVec.allOnes 6
  rsvd : rsvdField r.mask = BitVec.allOnes 4
  rd : rdField r.mask = fieldMask i.rdOperand.isSome 3
  rs1 : rs1Field r.mask = fieldMask i.rs1Operand.isSome 3
  rs2 : rs2Field r.mask = fieldMask i.rs2Operand.isSome 3
  boff : boffField r.mask = fieldMask i.usesBoff 13
  bytes : r.bytes = i.byteCount

/-- The opcode map finds a command's row by its OPC. -/
theorem find?_opTable (i : Instr) :
    ∃ r, opTable.find? (fun r => r.opc == i.opc.toNat) = some r ∧ r.Describes i := by
  cases i <;> exact ⟨_, rfl, by simp only [Instr.opc]; decide, rfl, rfl, rfl, rfl, rfl, rfl, rfl⟩

/-- The masked word has the fields that the mask leaves. -/
theorem select_iff_fields {mask : Word} {opc : BitVec 6} :
    packFields opc 0 0 0 0 = w &&& mask ↔
      opcField w &&& opcField mask = opc ∧ rdField w &&& rdField mask = 0 ∧
        rs1Field w &&& rs1Field mask = 0 ∧ rs2Field w &&& rs2Field mask = 0 ∧
        boffField w &&& boffField mask = 0 ∧ rsvdField w &&& rsvdField mask = 0 := by
  simp only [packFields_eq_iff, opcField, rdField, rs1Field, rs2Field, boffField, rsvdField,
    BitVec.extractLsb'_and]

/-- A row selects a word of its OPC exactly if RSVD and the unused fields are 0. -/
theorem OpRow.Describes.select_iff {r : OpRow} (hr : r.Describes i) (h : opcField w = i.opc) :
    w &&& r.mask = r.pattern ↔ ReservedClear w i := by
  rw [eq_comm, hr.pattern, select_iff_fields, hr.opc, hr.rsvd, hr.rd, hr.rs1, hr.rs2, hr.boff,
    BitVec.and_allOnes, BitVec.and_allOnes]
  simp only [and_fieldMask_eq_zero_iff, h, true_and]
  tauto

/-- The range test of CHECK is the well-formedness of the command. -/
theorem TakesFields.outside_iff (h : TakesFields w i) :
    0 < i.byteCount ∧ bmemSize < (boffField w).toNat + i.byteCount ↔ ¬wellFormed i = true := by
  rw [wellFormed_iff, not_le]
  have hlt : i.boff.toNat < bmemSize := i.boff.isLt
  by_cases hb : 0 < i.byteCount
  · rw [h.boff (decide_eq_true hb)]
    exact and_iff_right hb
  · omega

/-- CHECK's answer on a word whose OPC is in the opcode map. -/
theorem TakesFields.check_eq (h : TakesFields w i) :
    check w = if ReservedClear w i then if wellFormed i then 0 else 3 else 2 := by
  obtain ⟨r, hfind, hr⟩ := find?_opTable i
  unfold check
  rw [h.opc, hfind]
  simp only [ne_eq, hr.select_iff h.opc, hr.bytes, h.outside_iff]
  by_cases clear : ReservedClear w i
  · rw [if_neg (not_not.2 clear.1), if_neg (not_not.2 clear), if_pos clear, ite_not]
  · rw [if_pos clear, if_neg clear, ite_self]

/-- CHECK's answer on any other word. -/
theorem check_eq_one (h : ∀ r ∈ opTable, r.opc ≠ (opcField w).toNat) : check w = 1 := by
  have hfind : opTable.find? (fun r => r.opc == (opcField w).toNat) = none :=
    List.find?_eq_none.2 fun r hr => by simpa using h r hr
  unfold check
  rw [hfind]

/-- CHECK accepts only a word that the row of its OPC selects (30_encoding.md R98). -/
theorem exists_row_of_check_eq_zero (h : check w = 0) :
    ∃ r ∈ opTable, r.opc = (opcField w).toNat ∧ w &&& r.mask = r.pattern := by
  unfold check at h
  split at h
  case h_1 => cases h
  case h_2 r hfind =>
    have select : w &&& r.mask = r.pattern := by
      by_contra hne
      rw [if_pos hne, ite_self] at h
      cases h
    exact ⟨r, List.mem_of_find?_eq_some hfind, by simpa using List.find?_some hfind, select⟩

/-- A row selects only words of its own OPC. -/
theorem opc_eq_of_select {q : OpRow} (hq : q ∈ opTable) (h : w &&& q.mask = q.pattern) :
    q.opc = (opcField w).toNat := by
  have rows : ∀ q ∈ opTable, q.mask.extractLsb' 26 6 = BitVec.allOnes 6 ∧
      q.opc = (q.pattern.extractLsb' 26 6).toNat := by decide
  obtain ⟨covers, opc⟩ := rows q hq
  rw [opc, opcField, field_of_select h 26 6 covers]

/-- No two rows of the opcode map have the same OPC (30_encoding.md R96). -/
theorem OpRow.eq_of_opc_eq {q r : OpRow} (hq : q ∈ opTable) (hr : r ∈ opTable) (h : q.opc = r.opc) :
    q = r := by
  have rows : ∀ q ∈ opTable, ∀ r ∈ opTable, q.opc = r.opc → q = r := by decide
  exact rows q hq r hr h

/-! ## The word as a sum of shifted fields (30_encoding.md R101) -/

@[simp] theorem PReg.field_toNat (r : PReg) : r.field.toNat = r.index := by cases r <;> rfl

/-- The formula of R101, for any fields. -/
theorem packFields_toNat_or (opc : BitVec 6) (rd rs1 rs2 : BitVec 3) (o : BOff) :
    (packFields opc rd rs1 rs2 o).toNat = opc.toNat <<< 26 ||| rd.toNat <<< 23 |||
      rs1.toNat <<< 20 ||| rs2.toNat <<< 17 ||| o.toNat := by
  simp only [packFields, BitVec.toNat_append, Nat.shiftLeft_or_distrib, ← Nat.shiftLeft_add]
  simp

/-! ## The statements -/

/-- Settles O1: the word of a command decodes to it whenever its byte range fits. -/
theorem decodeOfEncode : Obligations.DecodeOfEncode := by
  unfold Obligations.DecodeOfEncode
  exact fun i wf => decode_eq_ok_iff.2 ⟨rfl, wf⟩

/-- Settles O2: the same equivalence read the other way. -/
theorem encodeOfDecode : Obligations.EncodeOfDecode := by
  unfold Obligations.EncodeOfDecode
  exact fun w i => decode_eq_ok_iff.1

/-- Settles O3: the packed word as shifted fields, at the operands of each command. -/
theorem encodeIsTheFieldSum : Obligations.EncodeIsTheFieldSum := by
  unfold Obligations.EncodeIsTheFieldSum
  intro d s t o
  simp [encode, packFields_toNat_or]

/-- Settles O5: both make the same three tests once OPC is in the opcode map. -/
theorem decodeAgreesWithCheck : Obligations.DecodeAgreesWithCheck := by
  unfold Obligations.DecodeAgreesWithCheck
  intro w
  obtain ⟨i, hi⟩ | unmapped := takesFields_or_opc_unmapped w
  · rw [hi.decode_eq, hi.check_eq]
    by_cases clear : ReservedClear w i
    · rw [if_pos clear, if_pos clear]
      cases wellFormed i <;> simp [DecodeError.code]
    · rw [if_neg clear, if_neg clear]
      simp [DecodeError.code]
  · rw [decode_eq_illegalOpcode unmapped, check_eq_one unmapped]
    simp [DecodeError.code]

/-- Settles O6: the row is that of the word's OPC, and no two rows have the same OPC. -/
theorem validWordSelectsOneRow : Obligations.ValidWordSelectsOneRow := by
  unfold Obligations.ValidWordSelectsOneRow
  intro w h
  obtain ⟨r, hr, hopc, select⟩ := exists_row_of_check_eq_zero h
  exact ⟨r, hr, select, fun q hq hsel =>
    OpRow.eq_of_opc_eq hq hr ((opc_eq_of_select hq hsel).trans hopc.symm)⟩

/-- Settles O7: each word is evaluated. -/
theorem specWordsDecode : Obligations.SpecWordsDecode := by
  unfold Obligations.SpecWordsDecode
  decide

end Sys2Proof

namespace Sys2Proof.Machine

/-! ## Pseudo-instructions (30_encoding.md R100) -/

theorem exec_pzero (rd : PReg) (s : State) :
    exec (.pzero rd) s = .next (s.setPoly rd (Poly.tab fun _ => 0)).complete := rfl

theorem exec_psub (rd rs1 rs2 : PReg) (s : State) :
    exec (.psub rd rs1 rs2) s = .next (s.setPoly rd (Poly.tab fun k =>
      subLane ((s.poly rs1).coeff k) ((s.poly rs2).coeff k))).complete := rfl

theorem coeff_tab_subLane (f g : Nat → Nat) {k : Nat} (h : k < N) :
    (Poly.tab fun k => subLane (f k) (g k)).coeff k = subLane (f k) (g k) :=
  Poly.coeff_tab _ h ((Nat.mod_lt _ (by decide)).trans (by decide))

/-- The difference of 0 and a coefficient is its negation mod Q: the bias 6Q exceeds it. -/
theorem subLane_zero {b : Nat} (h : b < 65536) : (subLane 0 b : ℤ) = -(b : ℤ) % 12289 := by
  simp only [subLane, Q]
  omega

/-- Settles O50: after PZERO the minuend is 0, and the subtrahend is Ps as it was when pd != ps, and 0
when pd = ps. -/
theorem pseudoInstructionsExpand : Obligations.PseudoInstructionsExpand := by
  unfold Obligations.PseudoInstructionsExpand
  refine ⟨fun d a => ⟨rfl, rfl, rfl, rfl⟩, fun d a s =>
    ⟨_, _, exec_pzero d s, exec_psub d d a _, fun k hk => ?_⟩⟩
  have zero : (Poly.tab fun _ => 0).coeff k = 0 := Poly.coeff_tab _ hk (by decide)
  simp only [State.poly_complete, State.poly_setPoly_self, coeff_tab_subLane _ _ hk, zero]
  constructor
  · intro h
    rw [State.poly_setPoly_ne s _ h.symm]
    exact subLane_zero (Poly.coeff_lt _ k)
  · rintro rfl
    rw [State.poly_setPoly_self, zero]
    rfl

end Sys2Proof.Machine
end

-- Modular reduction (40_modular.md).
section
/-! SUPPORT. The command of a word that a row of the opcode map selects, the frame of a completion that
writes one register, what a lane-wise command stores, and the three reductions as numbers. -/

namespace Sys2Proof

variable {w : Word} {i : Instr}

/-- A word that the row of `i` selects decodes to `i`, the operands read from the word
(30_encoding.md R96, R98). -/
theorem decode_of_select (hi : i ∈ rowCommands w) (wf : wellFormed i = true) {r : OpRow}
    (find : opTable.find? (fun r => r.opc == i.opc.toNat) = some r)
    (select : w &&& r.mask = r.pattern) : decode w = .ok i := by
  obtain ⟨r', find', describes⟩ := find?_opTable i
  obtain rfl : r = r' := Option.some.inj (find.symm.trans find')
  have opc : opcField w = i.opc := by
    rw [opcField, field_of_select select 26 6 describes.opc, describes.pattern]
    exact opcField_packFields _ _ _ _ _
  obtain ⟨rd, rs1, rs2, boff⟩ := operands_of_mem_rowCommands i hi
  have fields : TakesFields w i := ⟨opc, rd, rs1, rs2, boff⟩
  rw [fields.decode_eq, if_pos ((describes.select_iff opc).1 select), if_pos wf]

end Sys2Proof

namespace Sys2Proof.Machine

open Safety

/-! ## Commands that write one register -/

theorem completes_setPoly (rd : PReg) (v : Poly) (s : State) :
    Completes s (s.setPoly rd v).complete := by
  constructor <;> rfl

theorem onlyReg_setPoly (rd : PReg) (v : Poly) (s : State) :
    OnlyReg rd s (s.setPoly rd v).complete :=
  ⟨fun _ h => s.poly_setPoly_ne v h, fun _ => rfl⟩

/-- A lane-wise command stores `f` of every lane exactly, where `f` keeps to 16 bits. -/
theorem lanes1_stores {f : Nat → Nat} (fits : ∀ c, c < 65536 → f c < 65536) (rd rs1 : PReg)
    (s : State) : ∃ t, lanes1 f rd rs1 s = .next t ∧ Completes s t ∧ OnlyReg rd s t ∧
      ∀ k, k < 1024 → (t.poly rd).coeff k = f ((s.poly rs1).coeff k) := by
  refine ⟨_, rfl, completes_setPoly .., onlyReg_setPoly .., fun k hk => ?_⟩
  rw [State.poly_complete, State.poly_setPoly_self]
  exact Poly.coeff_tab _ hk (fits _ (Poly.coeff_lt _ k))

/-! ## The reductions on one value -/

/-- The multiple of Q that barrett subtracts is at most a, since 5 Q < 65536. -/
theorem barrett_multiple_le (a : Nat) : 5 * a / 65536 * Q ≤ a := by
  simp only [Q]
  omega

theorem barrett_le_self (a : Nat) : barrett a ≤ a := Nat.sub_le ..

/-- barrett as R120 writes it, with the difference of integers. -/
theorem barrett_cast (a : Nat) : (barrett a : ℤ) = a - ((5 * a / 65536 : ℕ) : ℤ) * 12289 := by
  rw [barrett, Nat.cast_sub (barrett_multiple_le a), Nat.cast_mul, Nat.cast_ofNat]

theorem barrett_modEq (a : Nat) : barrett a ≡ a [MOD Q] := by
  have multiple_le : Q * (5 * a / 65536) ≤ a := (mul_comm ..).trans_le (barrett_multiple_le a)
  rw [Nat.ModEq, barrett, mul_comm, Nat.sub_mul_mod multiple_le]

theorem barrett_le {a : Nat} (h : a < 65536) : barrett a ≤ 16379 := by
  simp only [barrett, Q]
  omega

theorem freeze_le (a : Nat) : freeze a ≤ 12288 := Nat.le_of_lt_succ (Nat.mod_lt a (by decide))

/-- freeze is barrett and one conditional subtraction: barrett(a) is congruent to a and below 2 Q
(40_modular.md R122). -/
theorem freeze_eq_ite_barrett {a : Nat} (h : a < 65536) :
    freeze a = if 12289 ≤ barrett a then barrett a - 12289 else barrett a := by
  have hmod : barrett a % 12289 = freeze a := barrett_modEq a
  have hle := barrett_le h
  split_ifs <;> omega

theorem flipabs_cast (a : Nat) : (flipabs a : ℤ) = |(a % 12289 : ℤ) - 6144| := by
  rw [flipabs, freeze, Int.natCast_natAbs, Int.natCast_mod, Nat.cast_ofNat]

theorem flipabs_le (a : Nat) : flipabs a ≤ 6144 := by
  have := freeze_le a
  unfold flipabs
  omega

/-! ## The statements -/

/-- Settles O31: each command stores its reduction of every lane, which keeps to 16 bits. -/
theorem reductionsActOnEveryLane : Obligations.ReductionsActOnEveryLane := by
  unfold Obligations.ReductionsActOnEveryLane
  refine ⟨fun w h => decode_of_select (by simp [rowCommands]) rfl rfl h,
    fun w h => decode_of_select (by simp [rowCommands]) rfl rfl h,
    fun w h => decode_of_select (by simp [rowCommands]) rfl rfl h, fun d a s => ⟨?_, ?_, ?_⟩⟩
  · obtain ⟨t, next, completes, frame, lane⟩ :=
      lanes1_stores (fun c hc => (barrett_le_self c).trans_lt hc) d a s
    exact ⟨t, next, completes, frame, fun k hk => by rw [lane k hk, barrett_cast]⟩
  · exact lanes1_stores (fun c hc => (Nat.mod_le c Q).trans_lt hc) d a s
  · obtain ⟨t, next, completes, frame, lane⟩ :=
      lanes1_stores (fun c _ => (flipabs_le c).trans_lt (by decide)) d a s
    exact ⟨t, next, completes, frame, fun k hk => by rw [lane k hk, flipabs_cast]⟩

/-- Settles O32, bound by bound. -/
theorem reductionsAreCongruentAndBounded : Obligations.ReductionsAreCongruentAndBounded := by
  unfold Obligations.ReductionsAreCongruentAndBounded
  exact fun a ha => ⟨⟨barrett_cast a, barrett_modEq a, barrett_le ha⟩,
    ⟨rfl, freeze_le a, freeze_eq_ite_barrett ha⟩, flipabs_le a⟩

end Sys2Proof.Machine
end

-- Polynomial arithmetic (41_poly_arith.md).
section
/-! SUPPORT. What a command on two registers stores and when its operands commute, the three lane
operations as operations of Z_Q, and the laws of R144 from both. -/

namespace Sys2Proof.Machine

open Safety

/-! ## Commands that combine two registers lane by lane -/

/-- A command on pairs of lanes stores `f` of every pair exactly, where `f` gives residues. -/
theorem lanes2_stores {f : Nat → Nat → Nat} (residue : ∀ x y, f x y < Q) (rd rs1 rs2 : PReg)
    (s : State) : ∃ t, lanes2 f rd rs1 rs2 s = .next t ∧ Completes s t ∧ OnlyReg rd s t ∧
      ∀ k, k < 1024 → (t.poly rd).coeff k = f ((s.poly rs1).coeff k) ((s.poly rs2).coeff k) := by
  refine ⟨_, rfl, completes_setPoly .., onlyReg_setPoly .., fun k hk => ?_⟩
  rw [State.poly_complete, State.poly_setPoly_self]
  exact Poly.coeff_tab _ hk ((residue _ _).trans (by decide))

theorem lanes2_comm {f : Nat → Nat → Nat} (comm : ∀ x y, f x y = f y x) (rd rs1 rs2 : PReg)
    (s : State) : lanes2 f rd rs1 rs2 s = lanes2 f rd rs2 rs1 s := by
  simp only [lanes2, comm ((s.poly rs1).coeff _)]

/-! ## The lane operations -/

theorem addLane_lt (x y : Nat) : addLane x y < Q := Nat.mod_lt _ (by decide)

theorem subLane_lt (x y : Nat) : subLane x y < Q := Nat.mod_lt _ (by decide)

theorem mulLane_lt (x y : Nat) : mulLane x y < Q := Nat.mod_lt _ (by decide)

theorem addLane_comm (x y : Nat) : addLane x y = addLane y x := by
  rw [addLane, addLane, add_comm]

theorem mulLane_comm (x y : Nat) : mulLane x y = mulLane y x := by
  rw [mulLane, mulLane, mul_comm]

/-- The bias 6Q is above every 16-bit subtrahend, so the difference of naturals is the one of R141. -/
theorem subLane_cast (x : Nat) {y : Nat} (h : y < 65536) :
    (subLane x y : ℤ) = ((x : ℤ) + 6 * 12289 - y) % 12289 := by
  simp only [subLane, Q]
  omega

/-- The bias 6Q is a multiple of Q, so it leaves the residue of the difference. -/
theorem biased_sub_emod (x y : ℤ) : (x + 6 * 12289 - y) % 12289 = (x - y) % 12289 := by
  rw [add_sub_right_comm, Int.add_mul_emod_self_right]

theorem subLane_addLane_cancel (x : Nat) {y : Nat} (h : y < 65536) :
    subLane (addLane x y) y = x % 12289 := by
  simp only [subLane, addLane, Q]
  omega

theorem mulLane_addLane (x y z : Nat) :
    mulLane (addLane x y) z = addLane (mulLane x z) (mulLane y z) := by
  simp only [mulLane, addLane]
  rw [Nat.mod_mul_mod, add_mul, Nat.add_mod]

/-! ## The statements -/

/-- Settles O33: each command stores its lane operation, for PSUB with the bias read both ways. -/
theorem arithmeticActsOnEveryLane : Obligations.ArithmeticActsOnEveryLane := by
  unfold Obligations.ArithmeticActsOnEveryLane
  refine ⟨fun w h => decode_of_select (by simp [rowCommands]) rfl rfl h,
    fun w h => decode_of_select (by simp [rowCommands]) rfl rfl h,
    fun w h => decode_of_select (by simp [rowCommands]) rfl rfl h, fun d a b s => ⟨?_, ?_, ?_⟩⟩
  · exact lanes2_stores addLane_lt d a b s
  · obtain ⟨t, next, completes, frame, lane⟩ := lanes2_stores subLane_lt d a b s
    refine ⟨t, next, completes, frame, fun k hk => ?_⟩
    have subtrahend_lt := (s.poly b).coeff_lt k
    rw [lane k hk, subLane_cast _ subtrahend_lt]
    exact ⟨rfl, biased_sub_emod _ _, by omega⟩
  · exact lanes2_stores mulLane_lt d a b s

/-- PADD then PSUB by the same addend gives the first operand mod Q: the sum has left the addend as
it was (R144). -/
theorem psub_cancels_padd (e a : PReg) {d b : PReg} (s : State) (hdb : d ≠ b) :
    ∃ t u, exec (.padd d a b) s = .next t ∧ exec (.psub e d b) t = .next u ∧
      ∀ k, k < 1024 → (u.poly e).coeff k = (s.poly a).coeff k % 12289 := by
  obtain ⟨t, add, -, frame, sum⟩ := lanes2_stores addLane_lt d a b s
  obtain ⟨u, sub, -, -, difference⟩ := lanes2_stores subLane_lt e d b t
  refine ⟨t, u, add, sub, fun k hk => ?_⟩
  rw [difference k hk, sum k hk, frame.1 b hdb.symm]
  exact subLane_addLane_cancel _ (Poly.coeff_lt _ k)

/-- PMUL distributes over PADD: the operands `b` and `c` are read after `d` is written, and the first
product after `e` is (R144). -/
theorem pmul_distributes_over_padd (a : PReg) {d e b c : PReg} (s : State) (hdb : d ≠ b)
    (hdc : d ≠ c) (hde : d ≠ e) : ∃ t u x y z,
      exec (.padd d a b) s = .next t ∧ exec (.pmul d d c) t = .next u ∧
      exec (.pmul d a c) s = .next x ∧ exec (.pmul e b c) x = .next y ∧
      exec (.padd d d e) y = .next z ∧ u.poly d = z.poly d := by
  obtain ⟨t, add, -, frame_t, sum⟩ := lanes2_stores addLane_lt d a b s
  obtain ⟨u, mul, -, -, product⟩ := lanes2_stores mulLane_lt d d c t
  obtain ⟨x, mul_a, -, frame_x, product_a⟩ := lanes2_stores mulLane_lt d a c s
  obtain ⟨y, mul_b, -, frame_y, product_b⟩ := lanes2_stores mulLane_lt e b c x
  obtain ⟨z, add_products, -, -, sum_products⟩ := lanes2_stores addLane_lt d d e y
  refine ⟨t, u, x, y, z, add, mul, mul_a, mul_b, add_products, Poly.ext_coeff fun k hk => ?_⟩
  rw [product k hk, sum k hk, frame_t.1 c hdc.symm, sum_products k hk, frame_y.1 d hde,
    product_a k hk, product_b k hk, frame_x.1 b hdb.symm, frame_x.1 c hdc.symm]
  exact mulLane_addLane _ _ _

/-- Settles O34, law by law. -/
theorem arithmeticObeysTheRingLaws : Obligations.ArithmeticObeysTheRingLaws := by
  unfold Obligations.ArithmeticObeysTheRingLaws
  exact fun d e a b c s => ⟨psub_cancels_padd e a s, lanes2_comm addLane_comm d a b s,
    lanes2_comm mulLane_comm d a b s, pmul_distributes_over_padd a s⟩

end Sys2Proof.Machine
end

-- The transform sums over a ring (42_transform.md R160, R162).
section
/-! SUPPORT. The transform sums over any ring with a root of unity of order 2n: they invert each
other (42_transform.md R165), and the pointwise product belongs to the negacyclic product (R166). -/

namespace Sys2Proof.Machine

open Finset

section Sums

variable {R : Type*} [CommRing R] {n : ℕ} {ψ φ m : R}

/-- The sum of R160: the value of the polynomial with coefficients `x` at `ψ^(2i+1)`. -/
def forwardSum (n : ℕ) (ψ : R) (x : ℕ → R) (i : ℕ) : R :=
  ∑ j ∈ range n, x j * ψ ^ ((2 * i + 1) * j)

/-- The sum of R162, with `m` for N^-1 and `φ` for PSI^-1. -/
def inverseSum (n : ℕ) (φ m : R) (y : ℕ → R) (j : ℕ) : R :=
  m * ∑ i ∈ range n, y i * φ ^ ((2 * i + 1) * j)

/-- Coefficient k of the product of `a` and `b` modulo X^n + 1 (R166). -/
def negacyclicCoeff (n : ℕ) (a b : ℕ → R) (k : ℕ) : R :=
  ∑ i ∈ range (k + 1), a i * b (k - i) - ∑ i ∈ Ico (k + 1) n, a i * b (k + n - i)

/-- What R167 says of PSI, PSI^-1 and N^-1. -/
structure TransformRoots (n : ℕ) (ψ φ m : R) : Prop where
  primitive : IsPrimitiveRoot ψ (2 * n)
  root_mul_inverse : ψ * φ = 1
  size_mul_scale : n * m = 1

theorem forwardSum_congr {x y : ℕ → R} (h : ∀ j, j < n → x j = y j) (i : ℕ) :
    forwardSum n ψ x i = forwardSum n ψ y i :=
  sum_congr rfl fun j hj => by rw [h j (mem_range.1 hj)]

theorem inverseSum_congr {x y : ℕ → R} (h : ∀ i, i < n → x i = y i) (j : ℕ) :
    inverseSum n φ m x j = inverseSum n φ m y j :=
  congrArg (m * ·) (sum_congr rfl fun i hi => by rw [h i (mem_range.1 hi)])

section Inverse

variable [IsDomain R] (h : TransformRoots n ψ φ m)
include h

/-- `ψ^j φ^k` is a power of a root of unity of order 2n, so its even powers sum to 0 unless j = k. -/
theorem TransformRoots.sum_even_powers {j k : ℕ} (hj : j < n) (hk : k < n) :
    ∑ i ∈ range n, ((ψ ^ j * φ ^ k) ^ 2) ^ i = if k = j then (n : R) else 0 := by
  have cancel (l : ℕ) : ψ ^ l * φ ^ l = 1 := by rw [← mul_pow, h.root_mul_inverse, one_pow]
  split_ifs with hkj
  · simp [hkj, cancel]
  · have square : IsPrimitiveRoot (ψ ^ 2) n := h.primitive.pow (by omega) rfl
    have square_pow : (ψ ^ 2) ^ n = 1 := square.pow_eq_one
    have ne_one : (ψ ^ j * φ ^ k) ^ 2 ≠ 1 := fun one => hkj <| square.pow_inj hk hj <| by
      linear_combination (-(ψ ^ 2) ^ k) * one
        + (ψ ^ 2) ^ j * (ψ ^ k * φ ^ k + 1) * cancel k
    have pow_one : ((ψ ^ j * φ ^ k) ^ 2) ^ n = 1 := by
      have inverse_pow : (φ ^ 2) ^ n = 1 := by
        linear_combination (ψ ^ n * φ ^ n + 1) * cancel n - (φ ^ 2) ^ n * square_pow
      calc ((ψ ^ j * φ ^ k) ^ 2) ^ n = ((ψ ^ 2) ^ n) ^ j * ((φ ^ 2) ^ n) ^ k := by ring
        _ = 1 := by rw [square_pow, inverse_pow, one_pow, one_pow, one_mul]
    have telescope := geom_sum_mul ((ψ ^ j * φ ^ k) ^ 2) n
    rw [pow_one, sub_self] at telescope
    exact (mul_eq_zero.1 telescope).resolve_right (sub_ne_zero.2 ne_one)

theorem TransformRoots.orthogonal_points {j k : ℕ} (hj : j < n) (hk : k < n) :
    ∑ i ∈ range n, ψ ^ ((2 * i + 1) * k) * φ ^ ((2 * i + 1) * j) = if k = j then (n : R) else 0 := by
  have factor : ∑ i ∈ range n, ψ ^ ((2 * i + 1) * k) * φ ^ ((2 * i + 1) * j) =
      (ψ ^ k * φ ^ j) * ∑ i ∈ range n, ((ψ ^ k * φ ^ j) ^ 2) ^ i := by
    rw [mul_sum]
    exact sum_congr rfl fun i _ => by ring
  rw [factor, h.sum_even_powers hk hj]
  rcases eq_or_ne k j with rfl | ne
  · rw [← mul_pow, h.root_mul_inverse, one_pow, one_mul]
  · rw [if_neg ne.symm, if_neg ne, mul_zero]

theorem TransformRoots.orthogonal_coefficients {i k : ℕ} (hi : i < n) (hk : k < n) :
    ∑ j ∈ range n, φ ^ ((2 * k + 1) * j) * ψ ^ ((2 * i + 1) * j) = if k = i then (n : R) else 0 := by
  rw [← h.sum_even_powers hi hk]
  refine sum_congr rfl fun j _ => ?_
  calc φ ^ ((2 * k + 1) * j) * ψ ^ ((2 * i + 1) * j)
      = (ψ * φ) ^ j * ((ψ ^ i * φ ^ k) ^ 2) ^ j := by ring
    _ = ((ψ ^ i * φ ^ k) ^ 2) ^ j := by rw [h.root_mul_inverse, one_pow, one_mul]

/-- R165: the inverse sums of the forward sums are the coefficients. -/
theorem TransformRoots.inverseSum_forwardSum (x : ℕ → R) {j : ℕ} (hj : j < n) :
    inverseSum n φ m (forwardSum n ψ x) j = x j := by
  have inner (k : ℕ) (hk : k ∈ range n) :
      ∑ i ∈ range n, x k * ψ ^ ((2 * i + 1) * k) * φ ^ ((2 * i + 1) * j) =
        if k = j then x k * n else 0 := by
    simp only [mul_assoc, ← mul_sum, h.orthogonal_points hj (mem_range.1 hk), mul_ite, mul_zero]
  simp only [inverseSum, forwardSum, sum_mul]
  rw [sum_comm, sum_congr rfl inner, sum_ite_eq', if_pos (mem_range.2 hj)]
  linear_combination x j * h.size_mul_scale

/-- R165: the forward sums of the inverse sums are the values. -/
theorem TransformRoots.forwardSum_inverseSum (y : ℕ → R) {i : ℕ} (hi : i < n) :
    forwardSum n ψ (inverseSum n φ m y) i = y i := by
  have inner (k : ℕ) (hk : k ∈ range n) :
      ∑ j ∈ range n, m * (y k * φ ^ ((2 * k + 1) * j)) * ψ ^ ((2 * i + 1) * j) =
        if k = i then m * y k * n else 0 := by
    simp only [← mul_assoc m]
    simp only [mul_assoc (m * y k), ← mul_sum, h.orthogonal_coefficients hi (mem_range.1 hk),
      mul_ite, mul_zero]
  simp only [inverseSum, forwardSum, mul_sum, sum_mul]
  rw [sum_comm, sum_congr rfl inner, sum_ite_eq', if_pos (mem_range.2 hi)]
  linear_combination y i * h.size_mul_scale

end Inverse

/-! ## The negacyclic product -/

/-- Multiplication by `z^i`, where `z^n = -1`, rotates the coefficients by i and negates those that
wrap around. -/
theorem pow_mul_sum_eq_rotated {z : R} (hz : z ^ n = -1) (b : ℕ → R) {i : ℕ} (hi : i < n) :
    z ^ i * ∑ j ∈ range n, b j * z ^ j =
      ∑ k ∈ range n, (if i ≤ k then b (k - i) else -b (k + n - i)) * z ^ k := by
  obtain ⟨l, rfl⟩ : ∃ l, n = i + l := ⟨n - i, by omega⟩
  have wrapped : ∀ k ∈ range i,
      (if i ≤ k then b (k - i) else -b (k + (i + l) - i)) * z ^ k =
        z ^ i * (b (l + k) * z ^ (l + k)) := by
    intro k hk
    rw [if_neg (by rw [mem_range] at hk; omega), show k + (i + l) - i = l + k by omega]
    linear_combination -b (l + k) * z ^ k * hz
  have kept : ∀ k ∈ range l,
      (if i ≤ i + k then b (i + k - i) else -b (i + k + (i + l) - i)) * z ^ (i + k) =
        z ^ i * (b k * z ^ k) := by
    intro k _
    rw [if_pos (Nat.le_add_right i k), Nat.add_sub_cancel_left]
    ring
  refine Eq.symm ((sum_range_add _ i l).trans ?_)
  rw [sum_congr rfl wrapped, sum_congr rfl kept, ← mul_sum, ← mul_sum, ← mul_add, add_comm i l,
    sum_range_add, add_comm]

/-- The product of two values at a root of X^n + 1 is the value of the negacyclic product. -/
theorem sum_mul_sum_eq_negacyclic {z : R} (hz : z ^ n = -1) (a b : ℕ → R) :
    (∑ i ∈ range n, a i * z ^ i) * ∑ j ∈ range n, b j * z ^ j =
      ∑ k ∈ range n, negacyclicCoeff n a b k * z ^ k := by
  have column (k : ℕ) (hk : k ∈ range n) :
      ∑ i ∈ range n, a i * (if i ≤ k then b (k - i) else -b (k + n - i)) =
        negacyclicCoeff n a b k := by
    rw [negacyclicCoeff, ← sum_range_add_sum_Ico _ (show k + 1 ≤ n from mem_range.1 hk),
      sub_eq_add_neg, ← sum_neg_distrib]
    refine congrArg₂ (· + ·) (sum_congr rfl fun i hi => ?_) (sum_congr rfl fun i hi => ?_)
    · rw [if_pos (Nat.lt_succ_iff.1 (mem_range.1 hi))]
    · rw [if_neg (Nat.not_le.2 (mem_Ico.1 hi).1), mul_neg]
  calc (∑ i ∈ range n, a i * z ^ i) * ∑ j ∈ range n, b j * z ^ j
      = ∑ i ∈ range n, a i * (z ^ i * ∑ j ∈ range n, b j * z ^ j) := by
        simp only [sum_mul, mul_assoc]
    _ = ∑ i ∈ range n, ∑ k ∈ range n,
          a i * ((if i ≤ k then b (k - i) else -b (k + n - i)) * z ^ k) :=
        sum_congr rfl fun i hi => by rw [pow_mul_sum_eq_rotated hz b (mem_range.1 hi), mul_sum]
    _ = ∑ k ∈ range n, negacyclicCoeff n a b k * z ^ k := by
        rw [sum_comm]
        exact sum_congr rfl fun k hk => by rw [← column k hk, sum_mul]; simp only [mul_assoc]

/-- R166 in the transform domain. -/
theorem forwardSum_mul_forwardSum (hψ : ψ ^ n = -1) (a b : ℕ → R) (i : ℕ) :
    forwardSum n ψ a i * forwardSum n ψ b i = forwardSum n ψ (negacyclicCoeff n a b) i := by
  have odd_power : (ψ ^ (2 * i + 1)) ^ n = -1 := by
    rw [pow_right_comm, hψ, Odd.neg_one_pow ⟨i, rfl⟩]
  simp only [forwardSum, pow_mul]
  exact sum_mul_sum_eq_negacyclic odd_power a b

end Sums

end Sys2Proof.Machine
end

-- The transform's constants (42_transform.md R167).
section
/-! SUPPORT. Values below Q as elements of Z_Q, and the constants of R167 as roots of unity in it. -/

namespace Sys2Proof.Machine

/-! ## Residues mod Q as elements of Z_Q -/

theorem isDomain_residues : IsDomain (ZMod Q) :=
  have : Fact (Nat.Prime Q) := ⟨by norm_num⟩
  inferInstance

theorem eq_mod_of_cast_eq {a b : Nat} (ha : a < Q) (h : (a : ZMod Q) = b) : a = b % Q := by
  rw [← (ZMod.natCast_eq_natCast_iff' a b Q).1 h, Nat.mod_eq_of_lt ha]

theorem eq_of_cast_eq {a b : Nat} (ha : a < Q) (hb : b < Q) (h : (a : ZMod Q) = b) : a = b := by
  rw [eq_mod_of_cast_eq ha h, Nat.mod_eq_of_lt hb]

theorem eq_emod_of_cast_eq {a : Nat} {z : ℤ} (ha : a < Q) (h : (a : ZMod Q) = z) :
    (a : ℤ) = z % 12289 := by
  rw [← Int.cast_natCast (R := ZMod Q)] at h
  have residues : (a : ℤ) % 12289 = z % 12289 := (ZMod.intCast_eq_intCast_iff' a z Q).1 h
  rw [← residues]
  exact (Int.emod_eq_of_lt (Int.natCast_nonneg a) (Int.ofNat_lt.2 ha)).symm

theorem pow_mod_eq_one_iff (b e : Nat) : b ^ e % Q = 1 ↔ (b : ZMod Q) ^ e = 1 := by
  rw [← Nat.cast_pow, ← Nat.cast_one (R := ZMod Q), ZMod.natCast_eq_natCast_iff',
    Nat.mod_eq_of_lt (show 1 < Q by decide)]

/-! ## The constants -/

theorem psi_pow_half_mod : psi ^ 1024 % Q = Q - 1 := by decide +kernel

/-- R167 in Z_Q: PSI is a root of X^1024 + 1. -/
theorem psi_pow_half : (psi : ZMod Q) ^ 1024 = -1 := by
  rw [← Nat.cast_pow, ← ZMod.natCast_mod, psi_pow_half_mod, Nat.cast_pred (by decide),
    ZMod.natCast_self, zero_sub]

/-- R167: PSI has order 2048, a power of 2, since its power 1024 is -1. -/
theorem isPrimitiveRoot_psi : IsPrimitiveRoot (psi : ZMod Q) 2048 := by
  have size : 1024 = 2 ^ 10 := rfl
  refine IsPrimitiveRoot.iff_orderOf.2 (orderOf_eq_prime_pow (p := 2) (n := 10) ?_ ?_)
  · rw [← size, ← pow_mod_eq_one_iff, psi_pow_half_mod]
    decide
  · rw [pow_succ, pow_mul, ← size, psi_pow_half, neg_one_sq]

theorem omega_cast : (omega : ZMod Q) = (psi : ZMod Q) ^ 2 := by
  rw [← Nat.cast_pow]
  rfl

/-- R167: OMEGA, the square of PSI, has half its order. -/
theorem isPrimitiveRoot_omega : IsPrimitiveRoot (omega : ZMod Q) 1024 := by
  rw [omega_cast]
  exact isPrimitiveRoot_psi.pow (by norm_num) rfl

theorem transformRoots : TransformRoots N (psi : ZMod Q) psiInv nInv where
  primitive := isPrimitiveRoot_psi
  root_mul_inverse := by
    rw [← Nat.cast_mul, ← pow_one ((_ : ℕ) : ZMod Q), ← pow_mod_eq_one_iff]
    decide
  size_mul_scale := by
    rw [← Nat.cast_mul, ← pow_one ((_ : ℕ) : ZMod Q), ← pow_mod_eq_one_iff]
    decide

/-- A primitive root of order k has no lower power 1 mod Q. -/
theorem pow_mod_ne_one {b k e : Nat} (h : IsPrimitiveRoot (b : ZMod Q) k) (pos : 0 < e)
    (lt : e < k) : b ^ e % Q ≠ 1 := by
  rw [Ne, pow_mod_eq_one_iff]
  exact h.pow_ne_one_of_pos_of_lt pos.ne' lt

/-- Settles O35: the two orders from the primitive roots of Z_Q, the rest by evaluation. -/
theorem transformConstantsAreRoots : Obligations.TransformConstantsAreRoots := by
  unfold Obligations.TransformConstantsAreRoots
  exact ⟨rfl, psi_pow_half_mod, (pow_mod_eq_one_iff _ _).2 isPrimitiveRoot_psi.pow_eq_one,
    fun _ => pow_mod_ne_one isPrimitiveRoot_psi, rfl, rfl,
    (pow_mod_eq_one_iff _ _).2 isPrimitiveRoot_omega.pow_eq_one,
    fun _ => pow_mod_ne_one isPrimitiveRoot_omega, rfl, by decide, by decide, by decide, rfl,
    by decide⟩

end Sys2Proof.Machine
end

-- NTT and INTT (42_transform.md R160 to R163, R165, R166).
section
/-! SUPPORT. The evaluations of the model as the sums of R160 and R162 in Z_Q, what the two commands
store, and the laws of R165 and R166 from the sums. -/

namespace Sys2Proof.Machine

open Safety Finset

/-! ## The evaluations as sums -/

/-- The coefficients of a register in Z_Q. -/
def Poly.inZQ (v : Poly) (k : Nat) : ZMod Q := v.coeff k

theorem evalAt_lt (x : Nat) : ∀ cs : List Nat, evalAt x cs < Q
  | [] => show 0 < Q by decide
  | _ :: _ => Nat.mod_lt _ (by decide)

/-- Horner's rule gives the value of the polynomial. -/
theorem evalAt_cast (x : Nat) (cs : List Nat) :
    (evalAt x cs : ZMod Q) = ∑ j ∈ range cs.length, (cs.getD j 0 : ZMod Q) * (x : ZMod Q) ^ j := by
  induction cs with
  | nil => simp [evalAt]
  | cons c cs ih =>
    rw [evalAt, ZMod.natCast_mod, Nat.cast_add, Nat.cast_mul, ih, List.length_cons, sum_range_succ',
      mul_sum, add_comm]
    simp only [List.getD_cons_succ, List.getD_cons_zero, pow_succ, pow_zero, mul_one]
    exact congrArg (· + (c : ZMod Q)) (sum_congr rfl fun j _ => by ring)

theorem evalAt_residues_cast (x : Nat) (v : Poly) :
    (evalAt x v.residues : ZMod Q) = ∑ j ∈ range N, v.inZQ j * (x : ZMod Q) ^ j := by
  simp only [evalAt_cast, Poly.residues_length, Poly.residues_getD, ZMod.natCast_mod, Poly.inZQ]

/-- The table of powers counts exponents mod 2048, the order of its base. -/
theorem rootPow_cast {b : Nat} (h : (b : ZMod Q) ^ 2048 = 1) (e : Nat) :
    (rootPow b e : ZMod Q) = (b : ZMod Q) ^ e := by
  rw [rootPow, ZMod.natCast_mod, Nat.cast_pow, ← pow_eq_pow_mod e h]

theorem psiInv_pow_eq_one : (psiInv : ZMod Q) ^ 2048 = 1 := by
  rw [← one_mul ((psiInv : ZMod Q) ^ 2048), ← isPrimitiveRoot_psi.pow_eq_one, ← mul_pow,
    transformRoots.root_mul_inverse, one_pow, isPrimitiveRoot_psi.pow_eq_one]

theorem nttCoeff_lt (a : List Nat) (i : Nat) : nttCoeff a i < Q := evalAt_lt _ a

theorem inttCoeff_lt (a : List Nat) (j : Nat) : inttCoeff a j < Q := Nat.mod_lt _ (by decide)

theorem nttCoeff_cast (v : Poly) (i : Nat) :
    (nttCoeff v.residues i : ZMod Q) = forwardSum N (psi : ZMod Q) v.inZQ i := by
  rw [nttCoeff, evalAt_residues_cast, rootPow_cast isPrimitiveRoot_psi.pow_eq_one]
  simp only [forwardSum, pow_mul]

/-- The factor PSI^-j stands before the sum in the model and in every term of R162. -/
theorem inttCoeff_cast (v : Poly) (j : Nat) :
    (inttCoeff v.residues j : ZMod Q) = inverseSum N (psiInv : ZMod Q) nInv v.inZQ j := by
  rw [inttCoeff, ZMod.natCast_mod, Nat.cast_mul, ZMod.natCast_mod, Nat.cast_mul,
    evalAt_residues_cast, rootPow_cast psiInv_pow_eq_one, rootPow_cast psiInv_pow_eq_one, inverseSum, mul_sum]
  exact congrArg ((nInv : ZMod Q) * ·) (sum_congr rfl fun i _ => by ring)

/-! ## The commands -/

/-- A command that tabulates residues into one register stores them exactly. -/
theorem putPoly_tab_stores {f : Nat → Nat} (residue : ∀ k, f k < Q) (rd : PReg) (s : State) :
    ∃ t, putPoly rd (Poly.tab f) s = .next t ∧ Completes s t ∧ OnlyReg rd s t ∧
      ∀ k, k < 1024 → (t.poly rd).coeff k = f k := by
  refine ⟨_, rfl, completes_setPoly .., onlyReg_setPoly .., fun k hk => ?_⟩
  rw [State.poly_complete, State.poly_setPoly_self]
  exact Poly.coeff_tab _ hk ((residue k).trans (by decide))

theorem ntt_stores (d a : PReg) (s : State) :
    ∃ t, exec (.ntt d a) s = .next t ∧ Completes s t ∧ OnlyReg d s t ∧
      ∀ i, i < 1024 → (t.poly d).coeff i = nttCoeff (s.poly a).residues i :=
  putPoly_tab_stores (nttCoeff_lt _) d s

theorem intt_stores (d a : PReg) (s : State) :
    ∃ t, exec (.intt d a) s = .next t ∧ Completes s t ∧ OnlyReg d s t ∧
      ∀ j, j < 1024 → (t.poly d).coeff j = inttCoeff (s.poly a).residues j :=
  putPoly_tab_stores (inttCoeff_lt _) d s

/-- Settles O36: Horner's rule at PSI^(2i+1) is the sum of R160. -/
theorem nttComputesTheForwardSums : Obligations.NttComputesTheForwardSums := by
  unfold Obligations.NttComputesTheForwardSums
  refine ⟨fun w h => decode_of_select (by simp [rowCommands]) rfl rfl h, fun d a s => ?_⟩
  obtain ⟨t, next, completes, frame, stored⟩ := ntt_stores d a s
  refine ⟨t, next, completes, frame, fun i hi => ?_⟩
  rw [stored i hi]
  refine eq_mod_of_cast_eq (nttCoeff_lt _ i) ?_
  rw [nttCoeff_cast, Nat.cast_sum]
  refine sum_congr rfl fun j _ => ?_
  rw [Nat.cast_mul, ZMod.natCast_mod, Nat.cast_pow]
  rfl

/-- Settles O37: with PSI^-j in every term, the model's product is the sum of R162. -/
theorem inttComputesTheInverseSums : Obligations.InttComputesTheInverseSums := by
  unfold Obligations.InttComputesTheInverseSums
  refine ⟨fun w h => decode_of_select (by simp [rowCommands]) rfl rfl h, fun d a s => ?_⟩
  obtain ⟨t, next, completes, frame, stored⟩ := intt_stores d a s
  refine ⟨t, next, completes, frame, fun j hj => ?_⟩
  rw [stored j hj]
  refine eq_mod_of_cast_eq (inttCoeff_lt _ j) ?_
  rw [inttCoeff_cast, Nat.cast_mul, Nat.cast_sum]
  refine congrArg ((nInv : ZMod Q) * ·) (sum_congr rfl fun i _ => ?_)
  rw [Nat.cast_mul, ZMod.natCast_mod, Nat.cast_pow]
  rfl

/-! ## The laws -/

variable {u v w : Poly}

/-- INTT of NTT in Z_Q (R165). -/
theorem inttCoeff_of_ntt (hv : ∀ i, i < 1024 → v.coeff i = nttCoeff u.residues i) {j : Nat}
    (hj : j < 1024) : inttCoeff v.residues j = u.coeff j % 12289 := by
  have := isDomain_residues
  refine eq_mod_of_cast_eq (inttCoeff_lt _ j) ?_
  have values (i : Nat) (hi : i < N) : v.inZQ i = forwardSum N (psi : ZMod Q) u.inZQ i := by
    rw [← nttCoeff_cast, ← hv i hi, Poly.inZQ]
  rw [inttCoeff_cast, inverseSum_congr values, transformRoots.inverseSum_forwardSum _ hj]
  rfl

/-- NTT of INTT in Z_Q (R165). -/
theorem nttCoeff_of_intt (hv : ∀ j, j < 1024 → v.coeff j = inttCoeff u.residues j) {i : Nat}
    (hi : i < 1024) : nttCoeff v.residues i = u.coeff i % 12289 := by
  have := isDomain_residues
  refine eq_mod_of_cast_eq (nttCoeff_lt _ i) ?_
  have coefficients (j : Nat) (hj : j < N) :
      v.inZQ j = inverseSum N (psiInv : ZMod Q) nInv u.inZQ j := by
    rw [← inttCoeff_cast, ← hv j hj, Poly.inZQ]
  rw [nttCoeff_cast, forwardSum_congr coefficients, transformRoots.forwardSum_inverseSum _ hi]
  rfl

/-- Settles O38: each command reads the register the other has written. -/
theorem transformsAreMutualInverses : Obligations.TransformsAreMutualInverses := by
  unfold Obligations.TransformsAreMutualInverses
  refine fun d e a s => ⟨?_, ?_⟩
  · obtain ⟨t, ntt, -, -, values⟩ := ntt_stores d a s
    obtain ⟨u, intt, -, -, coefficients⟩ := intt_stores e d t
    exact ⟨t, u, ntt, intt, fun j hj => (coefficients j hj).trans (inttCoeff_of_ntt values hj)⟩
  · obtain ⟨t, intt, -, -, coefficients⟩ := intt_stores d a s
    obtain ⟨u, ntt, -, -, values⟩ := ntt_stores e d t
    exact ⟨t, u, intt, ntt, fun i hi => (values i hi).trans (nttCoeff_of_intt coefficients hi)⟩

/-- INTT of the products of the values is the negacyclic product (R166). -/
theorem inttCoeff_of_products
    (hw : ∀ i, i < 1024 → w.coeff i = mulLane (nttCoeff u.residues i) (nttCoeff v.residues i))
    {k : Nat} (hk : k < 1024) :
    (inttCoeff w.residues k : ZMod Q) = negacyclicCoeff N u.inZQ v.inZQ k := by
  have := isDomain_residues
  have products (i : Nat) (hi : i < N) :
      w.inZQ i = forwardSum N (psi : ZMod Q) (negacyclicCoeff N u.inZQ v.inZQ) i := by
    rw [← forwardSum_mul_forwardSum psi_pow_half, ← nttCoeff_cast, ← nttCoeff_cast, Poly.inZQ,
      hw i hi, mulLane, ZMod.natCast_mod, Nat.cast_mul]
  rw [inttCoeff_cast, inverseSum_congr products, transformRoots.inverseSum_forwardSum _ hk]

/-- Settles O39: the second operand is read after `x` is written, the first values after `y` is. -/
theorem transformsMultiplyRingElements : Obligations.TransformsMultiplyRingElements := by
  unfold Obligations.TransformsMultiplyRingElements
  intro a b x y z d s hxb hxy
  obtain ⟨t, ntt_a, -, frame_t, values_a⟩ := ntt_stores x a s
  obtain ⟨u, ntt_b, -, frame_u, values_b⟩ := ntt_stores y b t
  obtain ⟨v, mul, -, -, products⟩ := lanes2_stores mulLane_lt z x y u
  obtain ⟨o, intt, -, -, coefficients⟩ := intt_stores d z v
  refine ⟨t, u, v, o, ntt_a, ntt_b, mul, intt, fun k hk => ?_⟩
  have products_of_values (i : Nat) (hi : i < 1024) : (v.poly z).coeff i =
      mulLane (nttCoeff (s.poly a).residues i) (nttCoeff (s.poly b).residues i) := by
    rw [products i hi, frame_u.1 x hxy, values_a i hi, values_b i hi, frame_t.1 b hxb.symm]
  rw [coefficients k hk]
  refine eq_emod_of_cast_eq (inttCoeff_lt _ k) ?_
  rw [inttCoeff_of_products products_of_values hk]
  push_cast
  rfl

end Sys2Proof.Machine
end

-- The butterfly schedule (42_transform.md R164).
section
/-! SUPPORT. The Cooley-Tukey schedule computes the transform sums: before the stage of length 2^m
the blocks hold the sums over every 2^(10-m)-th input, and a butterfly joins the sums over the even and
the odd inputs. -/

namespace Sys2Proof.Machine

open Finset

/-! ## Sums over every s-th input -/

section Strides

variable {R : Type*} [CommRing R]

/-- The sum of the `l` inputs `x r`, `x (r + s)`, `x (r + 2s)`, ... at output `t`. -/
def strideSum (w : R) (x : ℕ → R) (s l r t : ℕ) : R :=
  ∑ j ∈ range l, x (r + s * j) * w ^ (s * j * t)

theorem sum_range_two_mul (f : ℕ → R) (l : ℕ) :
    ∑ j ∈ range (2 * l), f j = ∑ j ∈ range l, f (2 * j) + ∑ j ∈ range l, f (2 * j + 1) := by
  induction l with
  | zero => simp
  | succ l ih =>
    rw [Nat.mul_succ, sum_range_succ, sum_range_succ, ih, sum_range_succ _ l, sum_range_succ _ l]
    ring

/-- The even inputs and the odd ones each make a sum of half the length and twice the stride. -/
theorem strideSum_two_mul (w : R) (x : ℕ → R) (s l r t : ℕ) :
    strideSum w x s (2 * l) r t =
      strideSum w x (2 * s) l r t + strideSum w x (2 * s) l (r + s) t * w ^ (s * t) := by
  rw [strideSum, sum_range_two_mul, strideSum, strideSum, sum_mul]
  refine congrArg₂ (· + ·) (sum_congr rfl fun j _ => ?_) (sum_congr rfl fun j _ => ?_)
  · rw [show s * (2 * j) = 2 * s * j by ring]
  · rw [show r + s * (2 * j + 1) = r + s + 2 * s * j by ring]
    ring

theorem strideSum_add_period {w : R} {s l : ℕ} (h : w ^ (s * l) = 1) (x : ℕ → R) (r t : ℕ) :
    strideSum w x s l r (t + l) = strideSum w x s l r t := by
  refine sum_congr rfl fun j _ => ?_
  rw [show s * j * (t + l) = s * j * t + s * l * j by ring, pow_add, pow_mul w (s * l), h, one_pow,
    mul_one]

/-- The upper half of the outputs takes the odd inputs with the opposite sign. -/
theorem strideSum_two_mul_upper {w : R} {s l : ℕ} (h : w ^ (s * l) = -1) (x : ℕ → R) (r t : ℕ) :
    strideSum w x s (2 * l) r (t + l) =
      strideSum w x (2 * s) l r t - strideSum w x (2 * s) l (r + s) t * w ^ (s * t) := by
  have period : w ^ (2 * s * l) = 1 := by
    rw [mul_assoc, mul_comm 2, pow_mul, h, neg_one_sq]
  rw [strideSum_two_mul, strideSum_add_period period, strideSum_add_period period, mul_add,
    pow_add, h]
  ring

end Strides

/-! ## Bit reversal -/

/-- The low k bits of `b` in reverse order. -/
def bitrev (k b : ℕ) : ℕ := (List.range k).foldl (fun acc j => 2 * acc + b / 2 ^ j % 2) 0

theorem bitrev10_eq_bitrev (b : ℕ) : bitrev10 b = bitrev 10 b := rfl

theorem bitrev_succ (k b : ℕ) : bitrev (k + 1) b = 2 * bitrev k b + b / 2 ^ k % 2 := by
  rw [bitrev, List.range_succ, List.foldl_append, List.foldl_cons, List.foldl_nil, bitrev]

/-- The lowest of k + 1 bits becomes the highest. -/
theorem bitrev_low_bit (k b : ℕ) {c : ℕ} (hc : c < 2) :
    bitrev (k + 1) (2 * b + c) = bitrev k b + 2 ^ k * c := by
  induction k with
  | zero =>
    have : (2 * b + c) % 2 = c := by omega
    simpa [bitrev] using this
  | succ k ih =>
    have shift : (2 * b + c) / 2 ^ (k + 1) = b / 2 ^ k := by
      rw [pow_succ', ← Nat.div_div_eq_div_mul, show (2 * b + c) / 2 = b by omega]
    rw [bitrev_succ, ih, shift, bitrev_succ k b]
    ring

/-! ## One stage -/

theorem getD_map_range (f : ℕ → ℕ) {i : ℕ} (hi : i < N) : ((List.range N).map f).getD i 0 = f i := by
  simp [List.getD_eq_getElem?_getD, hi]

variable {root len b t : ℕ} {x : List ℕ}

theorem ctStage_length (root len : ℕ) (x : List ℕ) : (ctStage root len x).length = N := by
  rw [ctStage, List.length_map, List.length_range]

theorem ctStage_getD_lt {i : ℕ} (hi : i < N) : (ctStage root len x).getD i 0 < Q := by
  rw [ctStage, getD_map_range _ hi]
  dsimp only
  split_ifs <;> exact Nat.mod_lt _ (by decide)

/-- The butterfly's sum, in the lower half of block b. -/
theorem ctStage_lower (ht : t < len) (hi : len * (2 * b) + t < N) :
    ((ctStage root len x).getD (len * (2 * b) + t) 0 : ZMod Q) =
      x.getD (len * (2 * b) + t) 0 +
        x.getD (len * (2 * b + 1) + t) 0 * (root : ZMod Q) ^ (512 / len * t) := by
  have lane : (len * (2 * b) + t) % len = t := by rw [Nat.mul_add_mod, Nat.mod_eq_of_lt ht]
  have lower : (len * (2 * b) + t) % (2 * len) = t := by
    rw [← mul_assoc, mul_comm len, Nat.mul_add_mod, Nat.mod_eq_of_lt (by omega)]
  have partner : len * (2 * b) + t + len = len * (2 * b + 1) + t := by ring
  rw [ctStage, getD_map_range _ hi, lane, if_pos (by rwa [lower]), partner]
  simp only [ZMod.natCast_mod, Nat.cast_add, Nat.cast_mul, Nat.cast_pow]

/-- The butterfly's difference, in the upper half of block b. -/
theorem ctStage_upper (ht : t < len) (hi : len * (2 * b + 1) + t < N) :
    ((ctStage root len x).getD (len * (2 * b + 1) + t) 0 : ZMod Q) =
      x.getD (len * (2 * b) + t) 0 -
        x.getD (len * (2 * b + 1) + t) 0 * (root : ZMod Q) ^ (512 / len * t) := by
  have lane : (len * (2 * b + 1) + t) % len = t := by rw [Nat.mul_add_mod, Nat.mod_eq_of_lt ht]
  have upper : (len * (2 * b + 1) + t) % (2 * len) = len + t := by
    rw [show len * (2 * b + 1) + t = 2 * len * b + (len + t) by ring, Nat.mul_add_mod,
      Nat.mod_eq_of_lt (by omega)]
  have partner : len * (2 * b + 1) + t - len = len * (2 * b) + t := by
    rw [mul_add_one, add_right_comm, Nat.add_sub_cancel]
  have product_le (u v : ℕ) : v % Q ≤ u + Q :=
    (Nat.mod_lt v (by decide)).le.trans (Nat.le_add_left ..)
  rw [ctStage, getD_map_range _ hi, lane, if_neg (by omega), partner, ZMod.natCast_mod,
    Nat.cast_sub (product_le ..)]
  simp only [ZMod.natCast_mod, Nat.cast_add, Nat.cast_mul, Nat.cast_pow, ZMod.natCast_self, add_zero]

/-! ## All stages -/

/-- After m stages with k to come, block b of length 2^m holds the sums over every 2^k-th input from
the bit reversal of b on. -/
def BlocksHoldSums (root : ℕ) (x : ℕ → ZMod Q) (k m : ℕ) (y : List ℕ) : Prop :=
  ∀ b t, b < 2 ^ k → t < 2 ^ m →
    (y.getD (2 ^ m * b + t) 0 : ZMod Q) = strideSum (root : ZMod Q) x (2 ^ k) (2 ^ m) (bitrev k b) t

/-- Before the first stage every block is one input, in bit-reversed order. -/
theorem blocksHoldSums_bitrev (root : ℕ) (x : List ℕ) :
    BlocksHoldSums root (fun j => x.getD j 0) 10 0
      ((List.range N).map fun i => x.getD (bitrev10 i) 0) := by
  intro b t hb ht
  obtain rfl : t = 0 := by omega
  rw [pow_zero, one_mul, add_zero, getD_map_range _ hb, bitrev10_eq_bitrev]
  simp [strideSum]

/-- A stage joins each two neighbouring blocks: their bit reversals differ by the new stride. -/
theorem BlocksHoldSums.next_stage {k m : ℕ} {y : List ℕ} {input : ℕ → ZMod Q}
    (hroot : (root : ZMod Q) ^ 512 = -1) (total : k + 1 + m = 10)
    (h : BlocksHoldSums root input (k + 1) m y) :
    BlocksHoldSums root input k (m + 1) (ctStage root (2 ^ m) y) := by
  have half : 2 ^ k * 2 ^ m = 512 := by
    rw [← pow_add, show k + m = 9 by omega]
    rfl
  have twiddle : 512 / 2 ^ m = 2 ^ k := Nat.div_eq_of_eq_mul_left (by positivity) half.symm
  intro b t hb ht
  have even {t : ℕ} (ht : t < 2 ^ m) := h (2 * b + 0) t (by rw [pow_succ]; omega) ht
  have odd {t : ℕ} (ht : t < 2 ^ m) := h (2 * b + 1) t (by rw [pow_succ]; omega) ht
  rw [bitrev_low_bit k b (by decide)] at even odd
  have in_range : 2 ^ (m + 1) * b + t < N :=
    calc 2 ^ (m + 1) * b + t < 2 ^ (m + 1) * (b + 1) := by rw [mul_add_one]; omega
      _ ≤ 2 ^ (m + 1) * 2 ^ k := Nat.mul_le_mul_left _ hb
      _ = 2 * 512 := by rw [pow_succ', mul_assoc, mul_comm (2 ^ m), half]
  simp only [add_zero, mul_zero, mul_one, pow_succ' 2 k, pow_succ' 2 m] at even odd ht in_range ⊢
  rcases lt_or_ge t (2 ^ m) with lower | upper
  · have index : 2 * 2 ^ m * b + t = 2 ^ m * (2 * b) + t := by ring
    rw [index] at in_range ⊢
    rw [ctStage_lower lower in_range, even lower, odd lower, twiddle, strideSum_two_mul]
  · obtain ⟨t, rfl⟩ := Nat.exists_eq_add_of_le' upper
    have lt : t < 2 ^ m := by omega
    have index : 2 * 2 ^ m * b + (t + 2 ^ m) = 2 ^ m * (2 * b + 1) + t := by ring
    rw [index] at in_range ⊢
    rw [ctStage_upper lt in_range, even lt, odd lt, twiddle,
      strideSum_two_mul_upper (by rw [half, hroot])]

theorem BlocksHoldSums.all_stages (hroot : (root : ZMod Q) ^ 512 = -1) {input : ℕ → ZMod Q}
    {y : List ℕ} (h : BlocksHoldSums root input 10 0 y) (m k : ℕ) (total : k + m = 10) :
    BlocksHoldSums root input k m
      ((List.range m).foldl (fun y m => ctStage root (2 ^ m) y) y) := by
  induction m generalizing k with
  | zero => obtain rfl : k = 10 := total; exact h
  | succ m ih =>
    rw [List.range_succ, List.foldl_append, List.foldl_cons, List.foldl_nil]
    exact (ih (k + 1) (by omega)).next_stage hroot (by omega)

/-- Steps 2 and 3 of R164: every output is the sum of all inputs times powers of the root. -/
theorem ctCore_cast (hroot : (root : ZMod Q) ^ 512 = -1) (x : List ℕ) (ht : t < N) :
    ((ctCore root x).getD t 0 : ZMod Q) =
      ∑ j ∈ range N, (x.getD j 0 : ZMod Q) * (root : ZMod Q) ^ (j * t) := by
  have sums := (blocksHoldSums_bitrev root x).all_stages hroot 10 0 rfl 0 t one_pos ht
  rw [mul_zero, zero_add] at sums
  refine sums.trans (sum_congr rfl fun j _ => ?_)
  rw [pow_zero, one_mul, show bitrev 0 0 = 0 from rfl, zero_add]

theorem ctCore_eq_ctStage (root : ℕ) (x : List ℕ) : ∃ y, ctCore root x = ctStage root (2 ^ 9) y := by
  rw [ctCore, List.range_succ (n := 9), List.foldl_append, List.foldl_cons, List.foldl_nil]
  exact ⟨_, rfl⟩

theorem ctCore_length (root : ℕ) (x : List ℕ) : (ctCore root x).length = N := by
  obtain ⟨y, hy⟩ := ctCore_eq_ctStage root x
  rw [hy, ctStage_length]

theorem ctCore_getD_lt (root : ℕ) (x : List ℕ) {i : ℕ} (hi : i < N) :
    (ctCore root x).getD i 0 < Q := by
  obtain ⟨y, hy⟩ := ctCore_eq_ctStage root x
  rw [hy]
  exact ctStage_getD_lt hi

/-! ## The two schedules -/

theorem omegaInv_cast : (omegaInv : ZMod Q) = (psiInv : ZMod Q) ^ 2 := by
  rw [← Nat.cast_pow]
  exact ZMod.natCast_mod _ _

theorem omega_pow_half : (omega : ZMod Q) ^ 512 = -1 := by
  rw [omega_cast, ← pow_mul, psi_pow_half]

theorem omegaInv_pow_half : (omegaInv : ZMod Q) ^ 512 = -1 := by
  have inverse : (psi : ZMod Q) ^ 1024 * (psiInv : ZMod Q) ^ 1024 = 1 := by
    rw [← mul_pow, transformRoots.root_mul_inverse, one_pow]
  rw [psi_pow_half, neg_one_mul, neg_eq_iff_eq_neg] at inverse
  rw [omegaInv_cast, ← pow_mul, inverse]

theorem nttCT_cast (a : Poly) {i : ℕ} (hi : i < N) :
    ((nttCT a).getD i 0 : ZMod Q) = forwardSum N (psi : ZMod Q) a.inZQ i := by
  rw [nttCT, ctCore_cast omega_pow_half _ hi]
  refine sum_congr rfl fun j hj => ?_
  rw [getD_map_range _ (mem_range.1 hj), ZMod.natCast_mod, Nat.cast_mul, ZMod.natCast_mod,
    Nat.cast_pow, omega_cast, Poly.inZQ]
  ring

theorem inttCT_cast (a : Poly) {j : ℕ} (hj : j < N) :
    ((inttCT a).getD j 0 : ZMod Q) = inverseSum N (psiInv : ZMod Q) nInv a.inZQ j := by
  rw [inttCT, getD_map_range _ hj, ZMod.natCast_mod, Nat.cast_mul, Nat.cast_mul, Nat.cast_pow,
    ctCore_cast omegaInv_pow_half _ hj, mul_comm _ (nInv : ZMod Q), mul_assoc, inverseSum, sum_mul]
  refine congrArg ((nInv : ZMod Q) * ·) (sum_congr rfl fun i hi => ?_)
  rw [getD_map_range _ (mem_range.1 hi), ZMod.natCast_mod, omegaInv_cast, Poly.inZQ]
  ring

theorem coeffs_tab_toNat {f : ℕ → ℕ} (residue : ∀ k, f k < Q) :
    (Poly.tab f).coeffs.map (·.toNat) = (List.range N).map f := by
  rw [Poly.tab, List.map_map]
  exact List.map_congr_left fun k _ =>
    BitVec.toNat_ofNat .. |>.trans (Nat.mod_eq_of_lt ((residue k).trans (by decide)))

theorem eq_map_range_of_getD {l : List ℕ} {f : ℕ → ℕ} (length : l.length = N)
    (h : ∀ i, i < N → l.getD i 0 = f i) : l = (List.range N).map f := by
  refine List.ext_getElem (by rw [length, List.length_map, List.length_range]) fun i hi _ => ?_
  rw [List.getElem_map, List.getElem_range, ← h i (length ▸ hi), List.getD_eq_getElem]

/-- Settles O40: both schedules give the sums in Z_Q, and their results are residues. -/
theorem butterflyScheduleGivesTheSums : Obligations.ButterflyScheduleGivesTheSums := by
  unfold Obligations.ButterflyScheduleGivesTheSums
  refine fun a => ⟨?_, ?_⟩
  · rw [nttPoly, coeffs_tab_toNat (nttCoeff_lt _)]
    refine eq_map_range_of_getD (ctCore_length ..) fun i hi =>
      eq_of_cast_eq (ctCore_getD_lt _ _ hi) (nttCoeff_lt _ i) ?_
    rw [nttCT_cast a hi, nttCoeff_cast]
  · rw [inttPoly, coeffs_tab_toNat (inttCoeff_lt _)]
    refine eq_map_range_of_getD (by rw [inttCT, List.length_map, List.length_range]) fun j hj =>
      eq_of_cast_eq ?_ (inttCoeff_lt _ j) ?_
    · rw [inttCT, getD_map_range _ hj]
      exact Nat.mod_lt _ (by decide)
    · rw [inttCT_cast a hj, inttCoeff_cast]

end Sys2Proof.Machine
end

-- Noise (43_noise.md).
section
/-! SUPPORT. CHECK's answer on a word that a row selects but whose byte range does not fit, what NOISE
stores, and sums over bytes of a function of the Hamming weight as sums with binomial weights. -/

namespace Sys2Proof

variable {w : Word} {i : Instr}

/-- A word that the row of `i` selects takes the form of `i`, the operands read from the word
(30_encoding.md R96). -/
theorem fields_of_select (hi : i ∈ rowCommands w) {r : OpRow}
    (find : opTable.find? (fun r => r.opc == i.opc.toNat) = some r)
    (select : w &&& r.mask = r.pattern) : TakesFields w i ∧ ReservedClear w i := by
  obtain ⟨r', find', describes⟩ := find?_opTable i
  obtain rfl : r = r' := Option.some.inj (find.symm.trans find')
  have opc : opcField w = i.opc := BitVec.eq_of_toNat_eq <|
    (opc_eq_of_select (List.mem_of_find?_eq_some find) select).symm.trans
      (by simpa using List.find?_some find)
  obtain ⟨rd, rs1, rs2, boff⟩ := operands_of_mem_rowCommands i hi
  exact ⟨⟨opc, rd, rs1, rs2, boff⟩, (describes.select_iff opc).1 select⟩

/-- A word that the row of `i` selects is rejected with code 3 when the byte range does not fit
(60_exceptions.md R256 check 3). -/
theorem check_eq_three_of_select (hi : i ∈ rowCommands w)
    (outside : bmemSize < i.boff.toNat + i.byteCount) {r : OpRow}
    (find : opTable.find? (fun r => r.opc == i.opc.toNat) = some r)
    (select : w &&& r.mask = r.pattern) : check w = 3 := by
  obtain ⟨fields, clear⟩ := fields_of_select hi find select
  have not_wf : ¬wellFormed i = true := fun wf => absurd ((wellFormed_iff i).1 wf) (by omega)
  rw [fields.check_eq, if_pos clear, if_neg not_wf]

end Sys2Proof

namespace Sys2Proof.Machine

open Safety Finset

/-! ## What NOISE stores -/

/-- HW as a count of bit positions (00_scope.md R7). -/
theorem hammingWeight_eq_countP (b : Byte) :
    hammingWeight b = (List.range 8).countP fun i => b.getLsbD i := by
  have count : ∀ l : List ℕ,
      (l.map fun i => (b.getLsbD i).toNat).sum = l.countP fun i => b.getLsbD i := by
    intro l
    induction l with
    | nil => rfl
    | cons i l ih =>
      rw [List.map_cons, List.sum_cons, List.countP_cons, ih, add_comm]
      cases b.getLsbD i <;> rfl
  exact count _

theorem noiseLane_cast (a b c d : Byte) : (noiseLane a b c d : ℤ) =
    ((hammingWeight a : ℤ) + hammingWeight b - hammingWeight c - hammingWeight d) % 12289 :=
  Int.toNat_of_nonneg (Int.emod_nonneg _ (by decide))

theorem noiseLane_lt (a b c d : Byte) : noiseLane a b c d < Q := by
  rw [← Int.ofNat_lt, noiseLane_cast]
  exact Int.emod_lt_of_pos _ (by decide)

/-- The bytes of coefficient k in BMEM (43_noise.md R180). -/
theorem noiseCoeff_readBytes (m : Memory) (a : ℕ) {k : ℕ} (hk : k < 1024) :
    noiseCoeff (m.readBytes a 4096) k = noiseLane (m.read (a + 4 * k)) (m.read (a + 4 * k + 1))
      (m.read (a + 4 * k + 2)) (m.read (a + 4 * k + 3)) := by
  simp (disch := omega) only [noiseCoeff, Memory.readBytes_getD, Nat.add_assoc]

theorem exec_noise (d : PReg) (o : BOff) (s : State) : exec (.noise d o) s =
    withBytes o 4096 s fun y => putPoly d (Poly.tab (noiseCoeff y)) s := rfl

theorem noise_stores (d : PReg) {o : BOff} (s : State) (fits : o.toNat + 4096 ≤ bmemSize) :
    ∃ t, exec (.noise d o) s = .next t ∧ Completes s t ∧ OnlyReg d s t ∧
      ∀ k, k < 1024 → (t.poly d).coeff k = noiseCoeff (s.bmem.readBytes o.toNat 4096) k := by
  rw [exec_noise, withBytes_of_le fits]
  exact putPoly_tab_stores (fun _ => noiseLane_lt ..) d s

/-- Settles O41: a lane is stored exactly, since it is a residue, and is read off BMEM byte by
byte. -/
theorem noiseSumsHammingWeights : Obligations.NoiseSumsHammingWeights := by
  unfold Obligations.NoiseSumsHammingWeights
  refine ⟨fun w h => ⟨fun inside => ?_, fun outside => ?_⟩, fun d o s fits => ?_⟩
  · exact decode_of_select (by simp [rowCommands])
      ((wellFormed_iff _).2 (Nat.add_le_add_right inside 4096)) rfl h
  · exact check_eq_three_of_select (i := .noise (rdOf w) (boffField w)) (by simp [rowCommands])
      (Nat.add_lt_add_right outside 4096) rfl h
  · obtain ⟨t, next, completes, frame, stored⟩ := noise_stores d s fits
    refine ⟨t, next, completes, frame, fun k hk => ?_⟩
    rw [stored k hk, noiseCoeff_readBytes _ _ hk, noiseLane_cast]
    simp only [hammingWeight_eq_countP]

/-! ## Sums with binomial weights -/

/-- The sum of `f` over the subsets of n elements, by their size: 2^n times the mean of `f` at a
binomial(n, 1/2) variable. -/
def binomialSum (n : ℕ) (f : ℕ → ℕ) : ℕ := ∑ x ∈ range (n + 1), n.choose x * f x

theorem binomialSum_succ (n : ℕ) (f : ℕ → ℕ) :
    binomialSum (n + 1) f = binomialSum n f + binomialSum n fun x => f (x + 1) :=
  sum_choose_succ_mul (fun x _ => f x) n

/-- The sum of independent binomial(m, 1/2) and binomial(n, 1/2) variables is binomial(m + n, 1/2). -/
theorem binomialSum_add (m n : ℕ) (f : ℕ → ℕ) :
    binomialSum (m + n) f = binomialSum m fun x => binomialSum n fun y => f (x + y) := by
  induction m generalizing f with
  | zero => simp [binomialSum]
  | succ m ih =>
    rw [Nat.succ_add, binomialSum_succ, binomialSum_succ, ih, ih]
    simp only [Nat.add_right_comm]

/-! ## Counting bytes by Hamming weight -/

/-- The Hamming weight of the byte with number b. -/
def byteWeight (b : Fin 256) : ℕ := hammingWeight (BitVec.ofFin b)

theorem byteWeight_le (b : Fin 256) : byteWeight b ≤ 8 := by
  rw [byteWeight, hammingWeight_eq_countP]
  exact List.countP_le_length

theorem card_byteWeight_eq : ∀ x ∈ range 9, #{b | byteWeight b = x} = Nat.choose 8 x := by
  decide +kernel

/-- The Hamming weight of a uniform byte is a binomial(8, 1/2) variable. -/
theorem sum_byteWeight (f : ℕ → ℕ) : ∑ b, f (byteWeight b) = binomialSum 8 f := by
  rw [← sum_fiberwise_of_maps_to' (t := range 9)
    (fun b _ => mem_range.2 (Nat.lt_succ_of_le (byteWeight_le b)))]
  refine sum_congr rfl fun x hx => ?_
  rw [sum_const, card_byteWeight_eq x hx, smul_eq_mul]

theorem sum_byteWeight_add (f : ℕ → ℕ) :
    ∑ a, ∑ b, f (byteWeight a + byteWeight b) = binomialSum 16 f := by
  rw [binomialSum_add 8 8, ← sum_byteWeight]
  exact sum_congr rfl fun a _ => sum_byteWeight fun y => f (byteWeight a + y)

theorem noiseLane_eq_iff (a b c d : Fin 256) (v : ℕ) :
    noiseLane (.ofFin a) (.ofFin b) (.ofFin c) (.ofFin d) = v ↔
      (((byteWeight a + byteWeight b : ℕ) : ℤ) - ((byteWeight c + byteWeight d : ℕ) : ℤ)) % 12289
        = v := by
  rw [← Int.natCast_inj, noiseLane_cast, sub_sub, ← Nat.cast_add, ← Nat.cast_add]
  rfl

/-- Settles O42: the count is a sum over the four bytes, the first two giving one binomial(16, 1/2)
variable and the last two the other. -/
theorem noiseCountsAreCentredBinomial : Obligations.NoiseCountsAreCentredBinomial := by
  unfold Obligations.NoiseCountsAreCentredBinomial
  intro v _
  simp only [card_filter, Fintype.sum_prod_type, noiseLane_eq_iff]
  rw [sum_byteWeight_add fun x => ∑ c, ∑ d,
    if ((x : ℤ) - ((byteWeight c + byteWeight d : ℕ) : ℤ)) % 12289 = v then 1 else 0]
  refine sum_congr rfl fun x _ => ?_
  dsimp only
  rw [sum_byteWeight_add fun y => if ((x : ℤ) - y) % 12289 = v then 1 else 0, binomialSum, mul_sum]
  simp only [mul_ite, mul_one, mul_zero]

end Sys2Proof.Machine
end

-- Reconciliation (44_reconciliation.md).
section
/-! SUPPORT. What a command with a byte range stores, in a register or at BOFF; the two-bit fields of
a byte; f and g on integers (R200, R201) and as functions of the residue mod 8 Q. -/

namespace Sys2Proof

variable {w : Word} {i : Instr}

/-- A word that the row of `i` selects decodes to `i` up to the last offset at which its byte range
fits BMEM, and is rejected with code 3 past it (60_exceptions.md R256 check 3). -/
theorem range_check_of_select (hi : i ∈ rowCommands w) {last : Nat}
    (fits_at_last : last + i.byteCount = bmemSize) {r : OpRow}
    (find : opTable.find? (fun r => r.opc == i.opc.toNat) = some r)
    (select : w &&& r.mask = r.pattern) :
    (i.boff.toNat ≤ last → decode w = .ok i) ∧ (last < i.boff.toNat → check w = 3) :=
  ⟨fun inside => decode_of_select hi ((wellFormed_iff i).2 (by omega)) find select,
    fun outside => check_eq_three_of_select hi (by omega) find select⟩

end Sys2Proof

namespace Sys2Proof.Machine

open Safety

/-! ## Commands with a byte range -/

/-- A command that tabulates residues computed from the bytes at BOFF into one register stores them
exactly. -/
theorem withBytes_tab_stores {f : List Byte → Nat → Nat} (residue : ∀ y k, f y k < Q) (rd : PReg)
    {o : BOff} {n : Nat} (fits : o.toNat + n ≤ bmemSize) (s : State) :
    ∃ t, withBytes o n s (fun y => putPoly rd (Poly.tab (f y)) s) = .next t ∧ Completes s t ∧
      OnlyReg rd s t ∧ ∀ k, k < 1024 → (t.poly rd).coeff k = f (s.bmem.readBytes o.toNat n) k := by
  rw [withBytes_of_le fits]
  exact putPoly_tab_stores (residue _) rd s

/-- A command that tabulates n bytes at BOFF stores them there and changes nothing else. -/
theorem putBytes_tab_stores (f : Nat → Byte) {o : BOff} {n : Nat} (fits : o.toNat + n ≤ bmemSize)
    (s : State) : ∃ t, putBytes o ((List.range n).map f) s = .next t ∧ Completes s t ∧
      OnlyBytes o.toNat n s t ∧ ∀ i, i < n → t.bmem.read (o.toNat + i) = f i := by
  have length : ((List.range n).map f).length = n := by rw [List.length_map, List.length_range]
  rw [putBytes_of_le (by rwa [length])]
  refine ⟨_, rfl, by constructor <;> rfl, ⟨fun _ => rfl, fun b hb => ?_⟩, fun i hi => ?_⟩
  · exact Memory.read_writeBytes_of_outside _ _ _ (by rwa [length])
  · refine (Memory.read_writeBytes_inside _ _ _ (by rwa [length])).trans ?_
    rw [List.getD_eq_getElem _ _ (by rwa [length]), List.getElem_map, List.getElem_range]

/-! ## Two-bit fields of a byte -/

theorem and_three_lt (a : Nat) : a &&& 3 < 4 := Nat.lt_succ_of_le Nat.and_le_right

theorem and_three_eq_mod (a : Nat) : a &&& 3 = a % 4 := Nat.and_two_pow_sub_one_eq_mod a 2

/-- Four two-bit fields side by side, as a number. -/
theorem four_fields_eq_add {a b c : Nat} (d : Nat) (ha : a < 4) (hb : b < 4) (hc : c < 4) :
    a ||| b <<< 2 ||| c <<< 4 ||| d <<< 6 = a + 4 * b + 16 * c + 64 * d := by
  rw [Nat.lor_comm a, ← Nat.shiftLeft_add_eq_or_of_lt ha, Nat.lor_comm _ (c <<< 4),
    ← Nat.shiftLeft_add_eq_or_of_lt (by omega), Nat.lor_comm _ (d <<< 6),
    ← Nat.shiftLeft_add_eq_or_of_lt (by omega)]
  omega

theorem low2_lt (c : Poly) (k : Nat) : low2 c k < 4 := and_three_lt _

theorem low2_eq_mod (c : Poly) (k : Nat) : low2 c k = c.coeff k % 4 := and_three_eq_mod _

theorem packByte_toNat_eq_add (c : Poly) (i : Nat) : (packByte c i).toNat =
    low2 c (4 * i) + 4 * low2 c (4 * i + 1) + 16 * low2 c (4 * i + 2) + 64 * low2 c (4 * i + 3) := by
  have h0 := low2_lt c (4 * i)
  have h1 := low2_lt c (4 * i + 1)
  have h2 := low2_lt c (4 * i + 2)
  have h3 := low2_lt c (4 * i + 3)
  rw [packByte, BitVec.toNat_ofNat, four_fields_eq_add _ h0 h1 h2, Nat.mod_eq_of_lt (by omega)]

/-- A packed byte holds its four fields, the first lowest (44_reconciliation.md R206). -/
theorem packByte_toNat (c : Poly) (i : Nat) : (packByte c i).toNat =
    low2 c (4 * i) ||| low2 c (4 * i + 1) <<< 2 ||| low2 c (4 * i + 2) <<< 4 |||
      low2 c (4 * i + 3) <<< 6 := by
  rw [packByte_toNat_eq_add, four_fields_eq_add _ (low2_lt ..) (low2_lt ..) (low2_lt ..)]

/-- Field j of a byte. -/
theorem byte_field_eq_div_mod (b j : Nat) : b >>> (2 * j) &&& 3 = b / 4 ^ j % 4 := by
  rw [and_three_eq_mod, Nat.shiftRight_eq_div_pow, pow_mul, show 2 ^ 2 = 4 from rfl]

/-- Digit j of a number with four base-4 digits. -/
theorem base_four_digit {f : Nat → Nat} (h : ∀ j, f j < 4) {j : Nat} (hj : j < 4) :
    (f 0 + 4 * f 1 + 16 * f 2 + 64 * f 3) / 4 ^ j % 4 = f j := by
  have h0 := h 0
  have h1 := h 1
  have h2 := h 2
  have h3 := h 3
  interval_cases j <;> omega

/-- Field j of a packed byte is the one that was packed (44_reconciliation.md R208). -/
theorem packByte_field (c : Poly) (i : Nat) {j : Nat} (hj : j < 4) :
    (packByte c i).toNat >>> (2 * j) &&& 3 = low2 c (4 * i + j) := by
  rw [byte_field_eq_div_mod, packByte_toNat_eq_add]
  exact base_four_digit (f := fun j => low2 c (4 * i + j)) (fun _ => low2_lt ..) hj

/-- Packing the four fields of a byte gives the byte (44_reconciliation.md R208). -/
theorem packByte_eq_of_fields {c : Poly} {b : Byte} {i : Nat}
    (h : ∀ j, j < 4 → c.coeff (4 * i + j) = b.toNat >>> (2 * j) &&& 3) : packByte c i = b := by
  have lt := b.isLt
  have field (j : Nat) (hj : j < 4) : low2 c (4 * i + j) = b.toNat / 4 ^ j % 4 := by
    rw [low2_eq_mod, h j hj, byte_field_eq_div_mod, Nat.mod_mod]
  have field0 : low2 c (4 * i) = _ := field 0 (by decide)
  apply BitVec.eq_of_toNat_eq
  rw [packByte_toNat_eq_add, field0, field 1 (by decide), field 2 (by decide), field 3 (by decide)]
  omega

/-! ## HELPREC -/

theorem roundDist_cast (x : Nat) : (roundDist x : ℤ) = |(x : ℤ) - 2 * 12289 * roundUp x| :=
  Int.natCast_natAbs _

theorem helpCoeff_lt (v : Poly) (r : List Byte) (n : Nat) : helpCoeff v r n < Q := by
  have lt_four : helpCoeff v r n < 4 := by
    rw [helpCoeff]
    split
    · omega
    · exact Nat.mod_lt _ (by decide)
  exact lt_four.trans (by decide)

/-- Coefficient j < 3 of group i (44_reconciliation.md R202). -/
theorem helpCoeff_difference (v : Poly) (r : List Byte) {i j : Nat} (hi : i < 256) (hj : j < 3) :
    (helpCoeff v r (i + 256 * j) : ℤ) = ((helpVt v r i j : ℤ) - helpVt v r i 3) % 4 := by
  rw [helpCoeff, show (i + 256 * j) % 256 = i by omega, show (i + 256 * j) / 256 = j by omega,
    if_pos hj, Int.toNat_of_nonneg (Int.emod_nonneg _ (by decide))]

/-- The last coefficient of group i (44_reconciliation.md R202). -/
theorem helpCoeff_last (v : Poly) (r : List Byte) {i : Nat} (hi : i < 256) :
    helpCoeff v r (i + 768) = (helpSel v r i + 2 * helpVt v r i 3) % 4 := by
  rw [helpCoeff, show (i + 768) % 256 = i by omega, show (i + 768) / 256 = 3 by omega]
  rfl

/-- The selection of group i, with the sum of the distances as an integer. -/
theorem helpSel_eq_ite (v : Poly) (r : List Byte) (i : Nat) : helpSel v r i =
    if (2 * 12289 : ℤ) ≤ roundDist (helpX v r i 0) + roundDist (helpX v r i 1)
      + roundDist (helpX v r i 2) + roundDist (helpX v r i 3) then 1 else 0 := by
  simp only [helpSel, helpSum, Q]
  exact if_congr (by omega) rfl rfl

theorem ditherBit_readBytes (m : Memory) (a : Nat) {i : Nat} (hi : i < 256) :
    ditherBit (m.readBytes a 32) i = (m.read (a + i / 8)).toNat >>> (i % 8) &&& 1 := by
  rw [ditherBit, Memory.readBytes_getD _ _ (by omega)]

theorem exec_helprec (d a : PReg) (o : BOff) (s : State) : exec (.helprec d a o) s =
    withBytes o 32 s fun r => putPoly d (Poly.tab (helpCoeff (s.poly a) r)) s := rfl

theorem helprec_stores (d a : PReg) {o : BOff} (s : State) (fits : o.toNat + 32 ≤ bmemSize) :
    ∃ t, exec (.helprec d a o) s = .next t ∧ Completes s t ∧ OnlyReg d s t ∧
      ∀ k, k < 1024 → (t.poly d).coeff k =
        helpCoeff (s.poly a) (s.bmem.readBytes o.toNat 32) k := by
  rw [exec_helprec]
  exact withBytes_tab_stores (helpCoeff_lt _) d fits s

/-- Settles O43: the stored coefficients of a group are the differences and the last value of R202,
on the values formed with the dither bit in BMEM. -/
theorem helprecComputesTheHelper : Obligations.HelprecComputesTheHelper := by
  unfold Obligations.HelprecComputesTheHelper
  refine ⟨fun w h => range_check_of_select (i := .helprec (rdOf w) (rs1Of w) (boffField w))
    (by simp [rowCommands]) rfl rfl h, fun d a o s fits => ?_⟩
  obtain ⟨t, next, completes, frame, stored⟩ := helprec_stores d a s fits
  refine ⟨t, next, completes, frame, fun i hi => ?_⟩
  intro rbit x v0 v1 dist sel vt
  have hx (j : Nat) : helpX (s.poly a) (s.bmem.readBytes o.toNat 32) i j = x j := by
    rw [helpX, ditherBit_readBytes _ _ hi]
  have hsel : helpSel (s.poly a) (s.bmem.readBytes o.toNat 32) i = sel := by
    simp only [helpSel_eq_ite, hx, roundDist_cast]
    rfl
  have hvt (j : Nat) : helpVt (s.poly a) (s.bmem.readBytes o.toNat 32) i j = vt j := by
    rw [helpVt, hsel, hx]
    rfl
  refine ⟨fun j hj => ?_, ?_⟩
  · rw [stored _ (by omega), helpCoeff_difference _ _ hi hj, hvt, hvt]
  · rw [stored _ (by omega), helpCoeff_last _ _ hi, hsel, hvt]

/-! ## REC -/

theorem decodeDist_cast (x : Nat) : (decodeDist x : ℤ) =
    |8 * 12289 * (((x : ℤ) / (4 * 12289) + 1) / 2) - x| := by
  rw [decodeDist, Int.natCast_natAbs, decodeMultiple]
  push_cast
  rfl

/-- The value of R204 as an integer: the helper combination is at most 9 Q, so nothing is cut off. -/
theorem recT_cast (v c : Poly) (i j : Nat) : (recT v c i j : ℤ) =
    if j < 3 then 16 * 12289 + 8 * (v.coeff (i + 256 * j) : ℤ)
      - 12289 * (2 * (low2 c (i + 256 * j) : ℤ) + low2 c (i + 768))
    else 16 * 12289 + 8 * (v.coeff (i + 768) : ℤ) - 12289 * low2 c (i + 768) := by
  have hj := low2_lt c (i + 256 * j)
  have h3 := low2_lt c (i + 768)
  simp only [recT, Q]
  split <;> omega

theorem keyBit_eq_one_iff (v c : Poly) (i : Nat) : keyBit v c i = 1 ↔
    (decodeDist (recT v c i 0) : ℤ) + decodeDist (recT v c i 1) + decodeDist (recT v c i 2)
      + decodeDist (recT v c i 3) < 8 * 12289 := by
  have bit : keyBit v c i = 1 ↔ recSum v c i < 8 * Q := by simp [keyBit]
  rw [bit, recSum, Q]
  omega

/-- Bits collected one by one into a number, bit m at position m. -/
theorem testBit_foldl_or_shiftLeft {f : Nat → Nat} (bit : ∀ m, f m = 0 ∨ f m = 1) (n j : Nat) :
    ((List.range n).foldl (fun acc m => acc ||| f m <<< m) 0).testBit j =
      decide (j < n ∧ f j = 1) := by
  induction n with
  | zero => simp
  | succ n ih =>
    rw [List.range_succ, List.foldl_append, List.foldl_cons, List.foldl_nil, Nat.testBit_or, ih,
      Nat.testBit_shiftLeft]
    rcases Nat.lt_trichotomy j n with lt | rfl | gt
    · simp [lt, Nat.not_le.2 lt, Nat.lt_succ_of_lt lt]
    · rcases bit j with h | h <;> simp [h]
    · have high : (f n).testBit (j - n) = false :=
        Nat.testBit_lt_two_pow ((show f n < 2 by rcases bit n with h | h <;> omega).trans_le
          (Nat.le_self_pow (by omega) 2))
      simp [high, Nat.not_lt.2 gt.le, show ¬j < n + 1 by omega]

theorem keyBit_eq_zero_or_one (v c : Poly) (i : Nat) : keyBit v c i = 0 ∨ keyBit v c i = 1 := by
  rw [keyBit]
  split <;> simp

/-- Key bit i stands at bit i mod 8 of key byte i / 8 (44_reconciliation.md R204). -/
theorem keyByte_getLsbD (v c : Poly) (i : Nat) :
    (keyByte v c (i / 8)).getLsbD (i % 8) = decide (keyBit v c i = 1) := by
  have lt : i % 8 < 8 := Nat.mod_lt i (by decide)
  rw [keyByte, BitVec.getLsbD_ofNat, testBit_foldl_or_shiftLeft fun _ => keyBit_eq_zero_or_one ..,
    Nat.div_add_mod]
  simp [lt]

theorem exec_reconcile (a b : PReg) (o : BOff) (s : State) : exec (.reconcile a b o) s =
    putBytes o ((List.range 32).map (keyByte (s.poly a) (s.poly b))) s := rfl

/-- Settles O44: a key bit is read back from its byte, and says how the sum of R204 compares. -/
theorem recRecoversTheKeyBits : Obligations.RecRecoversTheKeyBits := by
  unfold Obligations.RecRecoversTheKeyBits
  refine ⟨fun w h => range_check_of_select (i := .reconcile (rs1Of w) (rs2Of w) (boffField w))
    (by simp [rowCommands]) rfl rfl h, fun a b o s _ fits => ?_⟩
  rw [exec_reconcile]
  obtain ⟨t, next, completes, frame, stored⟩ :=
    putBytes_tab_stores (keyByte (s.poly a) (s.poly b)) fits s
  refine ⟨t, next, completes, frame, fun i hi => ?_⟩
  intro c v x g
  have hg (j : Nat) : (decodeDist (recT (s.poly a) (s.poly b) i j) : ℤ) = g (x j) := by
    rw [decodeDist_cast, recT_cast]
    rfl
  rw [stored _ (by omega), keyByte_getLsbD, decide_eq_decide, keyBit_eq_one_iff]
  simp only [hg]

/-! ## HPACK and HUNPACK -/

theorem exec_hpack (a : PReg) (o : BOff) (s : State) : exec (.hpack a o) s =
    putBytes o ((List.range 256).map (packByte (s.poly a))) s := rfl

theorem exec_hunpack (d : PReg) (o : BOff) (s : State) : exec (.hunpack d o) s =
    withBytes o 256 s fun h => putPoly d (Poly.tab (unpackCoeff h)) s := rfl

theorem unpackCoeff_lt (h : List Byte) (k : Nat) : unpackCoeff h k < Q :=
  (and_three_lt _).trans (by decide)

theorem hpack_stores (a : PReg) {o : BOff} (s : State) (fits : o.toNat + 256 ≤ bmemSize) :
    ∃ t, exec (.hpack a o) s = .next t ∧ Completes s t ∧ OnlyBytes o.toNat 256 s t ∧
      ∀ i, i < 256 → t.bmem.read (o.toNat + i) = packByte (s.poly a) i := by
  rw [exec_hpack]
  exact putBytes_tab_stores _ fits s

theorem hunpack_stores (d : PReg) {o : BOff} (s : State) (fits : o.toNat + 256 ≤ bmemSize) :
    ∃ t, exec (.hunpack d o) s = .next t ∧ Completes s t ∧ OnlyReg d s t ∧
      ∀ k, k < 1024 → (t.poly d).coeff k =
        (s.bmem.read (o.toNat + k / 4)).toNat >>> (2 * (k % 4)) &&& 3 := by
  rw [exec_hunpack]
  obtain ⟨t, next, completes, frame, stored⟩ := withBytes_tab_stores unpackCoeff_lt d fits s
  refine ⟨t, next, completes, frame, fun k hk => ?_⟩
  rw [stored k hk, unpackCoeff, Memory.readBytes_getD _ _ (by omega)]

/-- Settles O45: each byte of the string holds its four fields. -/
theorem hpackPacksTwoBitFields : Obligations.HpackPacksTwoBitFields := by
  unfold Obligations.HpackPacksTwoBitFields
  refine ⟨fun w h => range_check_of_select (i := .hpack (rs1Of w) (boffField w))
    (by simp [rowCommands]) rfl rfl h, fun a o s _ fits => ?_⟩
  obtain ⟨t, next, completes, frame, stored⟩ := hpack_stores a s fits
  refine ⟨t, next, completes, frame, fun i hi => ?_⟩
  rw [stored i hi, packByte_toNat]
  rfl

/-- Settles O46: a field keeps to 16 bits, so it is stored exactly. -/
theorem hunpackUnpacksTwoBitFields : Obligations.HunpackUnpacksTwoBitFields := by
  unfold Obligations.HunpackUnpacksTwoBitFields
  exact ⟨fun w h => range_check_of_select (i := .hunpack (rdOf w) (boffField w))
    (by simp [rowCommands]) rfl rfl h, fun d o s fits => hunpack_stores d s fits⟩

/-- Settles O47: a packed byte gives its fields back, and the fields of a byte pack to it. -/
theorem helperCodecRoundTrips : Obligations.HelperCodecRoundTrips := by
  unfold Obligations.HelperCodecRoundTrips
  refine fun d a o s _ fits => ⟨?_, ?_⟩
  · obtain ⟨t, packed, -, -, bytes⟩ := hpack_stores a s fits
    obtain ⟨u, unpacked, -, -, fields⟩ := hunpack_stores d t fits
    refine ⟨t, u, packed, unpacked, fun k hk => ?_⟩
    rw [fields k hk, bytes _ (by omega), packByte_field _ _ (Nat.mod_lt k (by decide)),
      Nat.div_add_mod, low2_eq_mod]
  · obtain ⟨t, unpacked, -, ⟨-, same_bytes⟩, fields⟩ := hunpack_stores d s fits
    obtain ⟨u, packed, -, ⟨-, outside⟩, bytes⟩ := hpack_stores d t fits
    refine ⟨t, u, unpacked, packed, fun b => ?_⟩
    by_cases hb : b < o.toNat ∨ o.toNat + 256 ≤ b
    · rw [outside b hb, same_bytes]
    · obtain ⟨i, rfl⟩ := Nat.exists_eq_add_of_le (show o.toNat ≤ b by omega)
      rw [bytes i (by omega)]
      refine packByte_eq_of_fields fun j hj => ?_
      rw [fields _ (by omega), show (4 * i + j) / 4 = i by omega, show (4 * i + j) % 4 = j by omega]

/-! ## Dependence on residues only (44_reconciliation.md R210)

Adding 8 Q to a value of R202 adds 4 to both candidates and leaves its distance; adding 8 Q to a value
of R204 leaves its distance. -/

section Residues

variable {x y : Nat}

theorem roundUp_modEq (h : x ≡ y [MOD 8 * Q]) : roundUp x ≡ roundUp y [MOD 4] := by
  simp only [roundUp, Nat.ModEq, Q] at *
  omega

theorem roundDown_modEq (h : x ≡ y [MOD 8 * Q]) : roundDown x ≡ roundDown y [MOD 4] := by
  simp only [roundDown, Nat.ModEq, Q] at *
  omega

theorem roundDist_congr (h : x ≡ y [MOD 8 * Q]) : roundDist x = roundDist y := by
  simp only [roundDist, roundUp, Nat.ModEq, Q] at *
  omega

theorem decodeDist_congr (h : x ≡ y [MOD 8 * Q]) : decodeDist x = decodeDist y := by
  simp only [decodeDist, decodeMultiple, Nat.ModEq, Q] at *
  omega

end Residues

variable {v v' c c' : Poly} {i j : Nat}

theorem helpX_modEq (r : List Byte) (h : v.coeff (i + 256 * j) ≡ v'.coeff (i + 256 * j) [MOD Q]) :
    helpX v r i j ≡ helpX v' r i j [MOD 8 * Q] :=
  (h.mul_left' 8).add_right _

theorem helpSel_congr {r : List Byte}
    (h : ∀ j, j < 4 → helpX v r i j ≡ helpX v' r i j [MOD 8 * Q]) :
    helpSel v r i = helpSel v' r i := by
  rw [helpSel, helpSel, helpSum, helpSum, roundDist_congr (h 0 (by decide)),
    roundDist_congr (h 1 (by decide)), roundDist_congr (h 2 (by decide)),
    roundDist_congr (h 3 (by decide))]

theorem helpVt_modEq {r : List Byte}
    (h : ∀ j, j < 4 → helpX v r i j ≡ helpX v' r i j [MOD 8 * Q]) (hj : j < 4) :
    helpVt v r i j ≡ helpVt v' r i j [MOD 4] := by
  rw [helpVt, helpVt, helpSel_congr h]
  split
  · exact roundDown_modEq (h j hj)
  · exact roundUp_modEq (h j hj)

theorem helpCoeff_congr (r : List Byte)
    (h : ∀ k, k < 1024 → v.coeff k ≡ v'.coeff k [MOD Q]) (n : Nat) :
    helpCoeff v r n = helpCoeff v' r n := by
  have hx (j : Nat) (hj : j < 4) : helpX v r (n % 256) j ≡ helpX v' r (n % 256) j [MOD 8 * Q] :=
    helpX_modEq r (h _ (by omega))
  have last := helpVt_modEq hx (show 3 < 4 by decide)
  rw [helpCoeff, helpCoeff, helpSel_congr hx]
  split
  · have difference := helpVt_modEq hx (show n / 256 < 4 by omega)
    simp only [Nat.ModEq] at last difference
    omega
  · simp only [Nat.ModEq] at last
    omega

theorem low2_congr {k : Nat} (h : c.coeff k ≡ c'.coeff k [MOD 4]) : low2 c k = low2 c' k := by
  rw [low2_eq_mod, low2_eq_mod, h]

theorem recT_modEq (hv : ∀ k, k < 1024 → v.coeff k ≡ v'.coeff k [MOD Q])
    (hc : ∀ k, k < 1024 → c.coeff k ≡ c'.coeff k [MOD 4]) (hi : i < 256) :
    recT v c i j ≡ recT v' c' i j [MOD 8 * Q] := by
  have t := recT_cast v c i j
  have t' := recT_cast v' c' i j
  rw [low2_congr (hc (i + 768) (by omega))] at t
  simp only [Nat.ModEq, Q] at *
  split at t
  · have hv := hv (i + 256 * j) (by omega)
    rw [low2_congr (hc (i + 256 * j) (by omega))] at t
    rw [if_pos ‹_›] at t'
    omega
  · have hv := hv (i + 768) (by omega)
    rw [if_neg ‹_›] at t'
    omega

theorem keyBit_congr (hv : ∀ k, k < 1024 → v.coeff k ≡ v'.coeff k [MOD Q])
    (hc : ∀ k, k < 1024 → c.coeff k ≡ c'.coeff k [MOD 4]) (hi : i < 256) :
    keyBit v c i = keyBit v' c' i := by
  have dist (j : Nat) : decodeDist (recT v c i j) = decodeDist (recT v' c' i j) :=
    decodeDist_congr (recT_modEq hv hc hi)
  rw [keyBit, keyBit, recSum, recSum, dist, dist, dist, dist]

theorem keyByte_congr {b : Nat}
    (h : ∀ m, m < 8 → keyBit v c (8 * b + m) = keyBit v' c' (8 * b + m)) :
    keyByte v c b = keyByte v' c' b := by
  refine congrArg (BitVec.ofNat 8) (List.foldl_ext _ _ _ fun acc m hm => ?_)
  rw [h m (List.mem_range.1 hm)]

/-- Settles O48: the values of R202 and R204 agree mod 8 Q, and f and g see no more of them. -/
theorem reconciliationSeesOnlyResidues : Obligations.ReconciliationSeesOnlyResidues := by
  unfold Obligations.ReconciliationSeesOnlyResidues
  exact fun v v' c c' r hv hc => ⟨fun n _ => helpCoeff_congr r hv n, fun b hb =>
    keyByte_congr fun m hm => keyBit_congr hv hc (by omega)⟩

end Sys2Proof.Machine
end

-- Housekeeping (45_housekeeping.md).
section
/-! SUPPORT. The one word of a command without operands and CHECK's answer on the other words of its
OPC, what each housekeeping command completes with, and the soft reset as a step. -/

namespace Sys2Proof

variable {w : Word} {i : Instr}

/-- A well-formed command has one word, the encoder's (30_encoding.md R101). -/
theorem decode_eq_ok_iff_eq_encode (wf : wellFormed i = true) : decode w = .ok i ↔ w = encode i := by
  rw [decode_eq_ok_iff, and_iff_left wf, eq_comm]

/-- A word of a command's form that is not its encoding has a reserved or an unused field that is not
0 (60_exceptions.md R256 check 2). -/
theorem TakesFields.check_eq_two (h : TakesFields w i) (ne : encode i ≠ w) : check w = 2 := by
  rw [h.check_eq, if_neg fun clear => ne (encode_eq_iff.2 ⟨h, clear⟩)]

/-- NOP has no operands: a word takes its form by the OPC alone. -/
theorem takesFields_nop (h : opcField w = 0) : TakesFields w .nop :=
  ⟨h, nofun, nofun, nofun, nofun⟩

end Sys2Proof

namespace Sys2Proof.Machine

open Safety

variable {s r : State} {w : Word}

/-! ## The commands -/

/-- A word that passes CHECK is accepted while ERR = 0 and BUSY = 0 (60_exceptions.md R252). -/
theorem State.submit_of_accepted (herr : s.err = false) (hbusy : s.busy = false)
    (hcheck : check w = 0) : s.submit w = { s with inflight := .command w, done := false } := by
  simp [State.submit, herr, hbusy, hcheck]

theorem exec_nop (s : State) : exec .nop s = .next s.complete := rfl

theorem exec_pcopy (d a : PReg) (s : State) :
    exec (.pcopy d a) s = .next (s.setPoly d (s.poly a)).complete := rfl

theorem exec_bzero (s : State) : exec .bzero s = .next { s with bmem := [] }.complete := rfl

/-- Settles O27: the words of OPC 0 have the form of NOP, and 0 is its encoding. -/
theorem nopOnlyCompletes : Obligations.NopOnlyCompletes := by
  unfold Obligations.NopOnlyCompletes
  have encode_nop : encode .nop = 0 := by decide
  refine ⟨fun w => ?_, fun w opc ne => ?_, fun s herr hbusy => ?_, exec_nop⟩
  · rw [decode_eq_ok_iff_eq_encode rfl, encode_nop]
  · exact (takesFields_nop opc).check_eq_two (encode_nop.trans_ne ne.symm)
  · exact State.submit_of_accepted herr hbusy (by decide)

/-- Settles O28: 0 is a residue, so the tabulated zeroes are stored exactly. -/
theorem pzeroZeroesTheRegister : Obligations.PzeroZeroesTheRegister := by
  unfold Obligations.PzeroZeroesTheRegister
  exact ⟨fun w h => decode_of_select (by simp [rowCommands]) rfl rfl h,
    fun d s => putPoly_tab_stores (fun _ => by decide) d s⟩

/-- Settles O29: the register written holds the whole content of Ps, read before the write. -/
theorem pcopyCopiesTheRegister : Obligations.PcopyCopiesTheRegister := by
  unfold Obligations.PcopyCopiesTheRegister
  refine ⟨fun w h => decode_of_select (by simp [rowCommands]) rfl rfl h, fun d a s =>
    ⟨_, exec_pcopy d a s, completes_setPoly .., onlyReg_setPoly .., fun k _ => ?_⟩⟩
  rw [State.poly_complete, State.poly_setPoly_self]

/-- Settles O30: no byte is listed any more, and an unlisted byte reads 0. -/
theorem bzeroErasesBmem : Obligations.BzeroErasesBmem := by
  unfold Obligations.BzeroErasesBmem
  have encode_bzero : encode .bzero = 0x0C000000 := by decide
  refine ⟨fun w => ?_, fun s =>
    ⟨_, exec_bzero s, by constructor <;> rfl, fun _ => rfl, fun _ _ => Memory.read_eq_zero nofun⟩⟩
  rw [decode_eq_ok_iff_eq_encode rfl, encode_bzero]

/-! ## Erasure (45_housekeeping.md R234, 70_reset_and_hazards.md R292) -/

/-- A reset looks at no data. -/
theorem resetCore_withData (s : State) (p : PolyFile) (b : Memory) :
    (s.withData p b).resetCore = s.resetCore := rfl

/-- A write of SRST = 1 to CTRL is a soft reset, and is refused while the pin is at 0
(70_reset_and_hazards.md R290, R294). -/
theorem step_softReset (m : HostMoves s (.write CtrlReg.ctrl.offset .b4 w) r)
    (srst : w.getLsbD 31 = true) :
    step s = if s.rstN then .next { r.resetCore with response := some .writeDone }
      else .refused .accessInReset := by
  cases hrst : s.rstN with
  | true => rw [step_writeCtrl .ctrl m hrst, State.writeCtrlReg, State.writeCtrl_of_srst srst]; rfl
  | false => rw [step_of_hostMoves m]; exact if_neg (by simp [m.rstN_eq, hrst])

/-- Settles O57: the erased storage is overwritten before anything reads it. -/
theorem erasureLeavesNoTrace : Obligations.ErasureLeavesNoTrace := by
  unfold Obligations.ErasureLeavesNoTrace
  refine ⟨fun s d v => ?_, fun s b => ?_, fun s r w p b m srst => ?_⟩
  · rw [exec_pzero, exec_pzero, State.setPoly_setPoly]
  · rw [exec_bzero, exec_bzero]
  · refine (step_softReset (m.withData p b) srst).trans ?_
    rw [step_softReset m srst, resetCore_withData]
    rfl

end Sys2Proof.Machine
end

-- Commands from submission to completion (60_exceptions.md).
section
/-! SUPPORT. CHECK's tests in the numbers of the word's fields; what a submission and a completion do,
outcome by outcome; and the turns that answer a next state. -/

namespace Sys2Proof

variable {w : Word} {i : Instr}

/-! ## The checks of a command word as numbers (60_exceptions.md R256) -/

/-- OPC is the top field, so its number is a quotient (30_encoding.md R91). -/
theorem opcField_toNat (w : Word) : (opcField w).toNat = w.toNat / 2 ^ 26 := by
  rw [opcField, BitVec.extractLsb'_toNat, Nat.shiftRight_eq_div_pow]
  exact Nat.mod_eq_of_lt (Nat.div_lt_of_lt_mul w.isLt)

/-- A field is 0 when its number is, for any field of the word. -/
theorem extractLsb'_eq_zero_iff (w : Word) (lo len : Nat) :
    w.extractLsb' lo len = 0 ↔ w.toNat / 2 ^ lo % 2 ^ len = 0 := by
  rw [← BitVec.toNat_inj, BitVec.extractLsb'_toNat, Nat.shiftRight_eq_div_pow, BitVec.ofNat_eq_ofNat,
    BitVec.toNat_ofNat, Nat.zero_mod]

theorem boffField_toNat (w : Word) : (boffField w).toNat = w.toNat % 2 ^ 13 := by
  rw [boffField, BitVec.extractLsb'_toNat, Nat.shiftRight_zero]

/-- The OPCs of the commands without RD, column for column as in the table of 30_encoding.md R96. -/
theorem Instr.rdOperand_isSome_eq_false_iff (i : Instr) :
    i.rdOperand.isSome = false ↔ i.opc.toNat ∈ [0x00, 0x03, 0x21, 0x22] := by
  cases i <;> simp [rdOperand, opc]

theorem Instr.rs1Operand_isSome_eq_false_iff (i : Instr) :
    i.rs1Operand.isSome = false ↔ i.opc.toNat ∈ [0x00, 0x01, 0x03, 0x18, 0x23] := by
  cases i <;> simp [rs1Operand, opc]

theorem Instr.rs2Operand_isSome_eq_false_iff (i : Instr) :
    i.rs2Operand.isSome = false ↔ i.opc.toNat ∉ [0x08, 0x09, 0x0A, 0x21] := by
  cases i <;> simp [rs2Operand, opc]

theorem Instr.usesBoff_eq_false_iff (i : Instr) :
    i.usesBoff = false ↔ i.opc.toNat ∉ [0x18, 0x20, 0x21, 0x22, 0x23] := by
  cases i <;> simp [usesBoff, byteCount, opc]

/-- The byte ranges that do not fit, by the byte counts of 30_encoding.md R96. -/
theorem Instr.range_outside_iff (i : Instr) (n : Nat) :
    0 < i.byteCount ∧ bmemSize < n + i.byteCount ↔
      (i.opc.toNat = 0x18 ∧ 8192 < n + 4096) ∨ (i.opc.toNat ∈ [0x20, 0x21] ∧ 8192 < n + 32) ∨
        (i.opc.toNat ∈ [0x22, 0x23] ∧ 8192 < n + 256) := by
  cases i <;> simp [byteCount, opc]

/-- A word fails check 2 when RSVD or a field its OPC does not use is not 0. -/
theorem TakesFields.not_reservedClear_iff (h : TakesFields w i) :
    ¬ReservedClear w i ↔ w.toNat / 2 ^ 13 % 16 ≠ 0 ∨
      (w.toNat / 2 ^ 23 % 8 ≠ 0 ∧ w.toNat / 2 ^ 26 ∈ [0x00, 0x03, 0x21, 0x22]) ∨
      (w.toNat / 2 ^ 20 % 8 ≠ 0 ∧ w.toNat / 2 ^ 26 ∈ [0x00, 0x01, 0x03, 0x18, 0x23]) ∨
      (w.toNat / 2 ^ 17 % 8 ≠ 0 ∧ w.toNat / 2 ^ 26 ∉ [0x08, 0x09, 0x0A, 0x21]) ∨
      (w.toNat % 2 ^ 13 ≠ 0 ∧ w.toNat / 2 ^ 26 ∉ [0x18, 0x20, 0x21, 0x22, 0x23]) := by
  have boff_zero : boffField w = 0 ↔ w.toNat % 2 ^ 13 = 0 := by
    rw [← boffField_toNat]
    exact BitVec.toNat_inj.symm
  rw [← opcField_toNat, h.opc, ← i.rdOperand_isSome_eq_false_iff, ← i.rs1Operand_isSome_eq_false_iff,
    ← i.rs2Operand_isSome_eq_false_iff, ← i.usesBoff_eq_false_iff]
  simp only [ReservedClear, not_and_or, Classical.not_imp, boff_zero, rsvdField, rdField, rs1Field,
    rs2Field, extractLsb'_eq_zero_iff, and_comm, ne_eq]
  rfl

/-- A word fails check 3 when the byte range of its OPC does not fit BMEM. -/
theorem TakesFields.not_wellFormed_iff (h : TakesFields w i) :
    ¬wellFormed i = true ↔
      (w.toNat / 2 ^ 26 = 0x18 ∧ 8192 < w.toNat % 2 ^ 13 + 4096) ∨
      (w.toNat / 2 ^ 26 ∈ [0x20, 0x21] ∧ 8192 < w.toNat % 2 ^ 13 + 32) ∨
      (w.toNat / 2 ^ 26 ∈ [0x22, 0x23] ∧ 8192 < w.toNat % 2 ^ 13 + 256) := by
  rw [← h.outside_iff, i.range_outside_iff, boffField_toNat, ← opcField_toNat, h.opc]

/-- The OPCs of the opcode map (30_encoding.md R96). -/
theorem map_opc_opTable : opTable.map OpRow.opc = [0x00, 0x01, 0x02, 0x03, 0x04, 0x05, 0x06, 0x08,
    0x09, 0x0A, 0x10, 0x11, 0x18, 0x20, 0x21, 0x22, 0x23] := rfl

/-- Settles O4: a legal OPC gives the word the form of one command, for which the two other checks are
tested; no other OPC is in the opcode map. -/
theorem checkAnswersTheFirstFailingCheck : Obligations.CheckAnswersTheFirstFailingCheck := by
  unfold Obligations.CheckAnswersTheFirstFailingCheck
  intro w opc rd rs1 rs2 rsvd boff legal nonzero outside
  have legal_iff : legal ↔ ∃ r ∈ opTable, r.opc = (opcField w).toNat := by
    rw [← List.mem_map, map_opc_opTable, opcField_toNat]
  obtain ⟨i, hi⟩ | unmapped := takesFields_or_opc_unmapped w
  · have nonzero_iff : ¬ReservedClear w i ↔ nonzero := hi.not_reservedClear_iff
    have outside_iff : ¬wellFormed i = true ↔ outside := hi.not_wellFormed_iff
    have is_legal : legal := by
      obtain ⟨r, find, -⟩ := find?_opTable i
      refine legal_iff.2 ⟨r, List.mem_of_find?_eq_some find, ?_⟩
      rw [hi.opc]
      simpa using List.find?_some find
    rw [hi.check_eq]
    refine ⟨fun illegal => absurd is_legal illegal, fun _ reserved => ?_,
      fun _ clear range => ?_, fun _ clear fits => ?_⟩
    · exact if_neg (nonzero_iff.2 reserved)
    · rw [if_pos (not_not.1 (mt nonzero_iff.1 clear)), if_neg (outside_iff.2 range)]
    · rw [if_pos (not_not.1 (mt nonzero_iff.1 clear)), if_pos (not_not.1 (mt outside_iff.1 fits))]
  · have illegal : ¬legal := fun h =>
      have ⟨r, hr, opc_eq⟩ := legal_iff.1 h
      unmapped r hr opc_eq
    exact ⟨fun _ => check_eq_one unmapped, fun h => absurd h illegal, fun h => absurd h illegal,
      fun h => absurd h illegal⟩

/-- A word that passes CHECK decodes, since CHECK reports every reason of the decoder
(60_exceptions.md R256, R258). -/
theorem exists_decode_of_check_eq_zero (h : check w = 0) :
    ∃ i, decode w = .ok i ∧ wellFormed i = true := by
  cases hd : decode w with
  | ok i => exact ⟨i, rfl, (decode_eq_ok_iff.1 hd).2⟩
  | error e =>
    have code : check w = e.code := (decodeAgreesWithCheck w).2 e hd
    rw [h] at code
    cases e <;> cases code

end Sys2Proof

namespace Sys2Proof.Machine

open Safety

variable {s r t : State} {w : Word}

/-! ## Submission (60_exceptions.md R252) -/

/-- While BUSY = 1 a word is rejected with code 5. -/
theorem State.submit_of_busy (w : Word) (herr : s.err = false) (hbusy : s.busy = true) :
    s.submit w = s.reject w 5 := by
  simp [State.submit, herr, hbusy]

/-- A word that fails a check is rejected with that check's code. -/
theorem State.submit_of_check_ne_zero (herr : s.err = false) (hbusy : s.busy = false)
    (hcheck : check w ≠ 0) : s.submit w = s.reject w (check w) := by
  rw [State.submit, if_neg (by simp [herr]), if_neg (by simp [hbusy]), if_pos hcheck]

/-- Settles O12, outcome by outcome of the submission that a write to CMD is. -/
theorem submitFollowsTheSubmitBlock : Obligations.SubmitFollowsTheSubmitBlock := by
  unfold Obligations.SubmitFollowsTheSubmitBlock
  intro s r w m hrst
  rw [step_writeCtrl .cmd m hrst, State.writeCtrlReg, ← m.keepsLatch.err, ← m.busy_eq]
  refine ⟨fun herr => ?_, fun herr hbusy => ?_, fun herr hbusy hcheck => ?_,
    fun herr hbusy hcheck => ?_⟩
  · rw [State.submit_of_err w herr]
  · rw [State.submit_of_busy w herr hbusy]
    rfl
  · rw [State.submit_of_check_ne_zero herr hbusy hcheck]
    rfl
  · rw [State.submit_of_accepted herr hbusy hcheck]

/-! ## Completion (60_exceptions.md R254) -/

/-- A completion is P and BMEM written, then INFLIGHT emptied and DONE set. -/
theorem completes_of_exec {i : Instr} (h : exec i s = .next t) : Completes s t := by
  obtain ⟨p, b, rfl, -⟩ := exec_eq_next h
  constructor <;> rfl

/-- Settles O13, from all that a completion can do. -/
theorem everyCompletionHasTheFrame : Obligations.EveryCompletionHasTheFrame := by
  unfold Obligations.EveryCompletionHasTheFrame
  exact fun _ _ _ => completes_of_exec

/-- Settles O8: the step is the engine's turn, which runs what INFLIGHT decodes to. -/
theorem stepRunsTheDecodedCommand : Obligations.StepRunsTheDecodedCommand := by
  unfold Obligations.StepRunsTheDecodedCommand
  intro s r w i m hw hi
  rw [step_of_engineMoves m]
  exact engineTurn_of_decode (m.inflight_eq.trans hw) hi

/-- The completion of the reset clear (70_reset_and_hazards.md R296). -/
theorem engineTurn_of_clear (h : s.inflight = .clear) :
    engineTurn s = .next { s with inflight := .empty } := by
  simp only [engineTurn, h]

/-- The engine's turn on a checked word is the completion of the command it decodes to. -/
theorem engineTurn_of_checked (hw : s.inflight = .command w) (hcheck : check w = 0) :
    ∃ i t, decode w = .ok i ∧ engineTurn s = exec i s ∧ exec i s = .next t := by
  obtain ⟨i, hi, wf⟩ := exists_decode_of_check_eq_zero hcheck
  obtain ⟨t, ht⟩ := exec_completes wf s
  exact ⟨i, t, hi, engineTurn_of_decode hw hi, ht⟩

/-- Settles O10: a checked word decodes to a well-formed command, and every such command completes. -/
theorem completionNeverFails : Obligations.CompletionNeverFails := by
  unfold Obligations.CompletionNeverFails
  intro s r m
  rw [step_of_engineMoves m, ← m.inflight_eq]
  refine ⟨fun w hw hcheck => ?_, engineTurn_of_clear⟩
  obtain ⟨i, t, hi, turn, ht⟩ := engineTurn_of_checked hw hcheck
  have frame := completes_of_exec ht
  exact ⟨i, t, hi, turn, turn.trans ht, frame, t.busy_eq_false_iff.2 frame.inflight⟩

/-- n bytes whose range at BOFF does not fit BMEM are not written (log 10). -/
theorem putBytes_tab_of_gt (f : Nat → Byte) {o : BOff} {n : Nat} (outside : bmemSize < o.toNat + n)
    (s : State) : putBytes o ((List.range n).map f) s = .fault .bmemRange :=
  putBytes_of_gt (by rwa [List.length_map, List.length_range]) s

/-- Settles O49: of the commands with a byte range each tests it before it reads or writes BMEM; the
others have no range that could lie outside. -/
theorem rangeOutsideBmemStops : Obligations.RangeOutsideBmemStops := by
  unfold Obligations.RangeOutsideBmemStops
  intro i s h
  have outside : bmemSize < i.boff.toNat + i.byteCount :=
    not_le.1 fun inside => by simp [(wellFormed_iff i).2 inside] at h
  cases i with
  | noise rd o => exact (exec_noise ..).trans (withBytes_of_gt outside s _)
  | helprec rd rs1 o => exact (exec_helprec ..).trans (withBytes_of_gt outside s _)
  | hunpack rd o => exact (exec_hunpack ..).trans (withBytes_of_gt outside s _)
  | reconcile rs1 rs2 o => exact (exec_reconcile ..).trans (putBytes_tab_of_gt _ outside s)
  | hpack rs1 o => exact (exec_hpack ..).trans (putBytes_tab_of_gt _ outside s)
  | nop | pzero | pcopy | bzero | preduce | pfreeze | pflipabs | padd | psub | pmul | ntt | intt =>
    cases h

/-! ## Progress (60_exceptions.md R264, 70_reset_and_hazards.md R290) -/

/-- With only checked words in INFLIGHT the engine's turn answers. -/
theorem engineTurn_answers (checked : ∀ w, s.inflight = .command w → check w = 0) :
    ∃ t, engineTurn s = .next t := by
  cases hs : s.inflight with
  | empty => exact ⟨s, by simp only [engineTurn, hs]⟩
  | clear => exact ⟨_, engineTurn_of_clear hs⟩
  | command w =>
    obtain ⟨i, t, -, turn, ht⟩ := engineTurn_of_checked hs (checked w hs)
    exact ⟨t, turn.trans ht⟩

/-- A bus access answers, or the machine is in hardware reset (log 6). -/
theorem access_answers_or_inReset (s u : State) :
    (∃ t, (if s.rstN then .next u else .refused .accessInReset : Result) = .next t) ∨
      (s.rstN = false ∧
        (if s.rstN then .next u else .refused .accessInReset : Result) = .refused .accessInReset) := by
  cases s.rstN <;> simp

/-- The host's turn answers, or it is a bus access in hardware reset. -/
theorem hostTurn_answers_or_inReset (s : State) :
    (∃ t, hostTurn s = .next t) ∨ (s.rstN = false ∧ hostTurn s = .refused .accessInReset) := by
  obtain ⟨-, idle⟩ | ⟨a, rest, -, act⟩ := hostTurn_cases s
  · exact .inl ⟨s, idle⟩
  · rw [act]
    cases a with
    | resetPin level => exact .inl ⟨_, rfl⟩
    | read off size => exact access_answers_or_inReset s _
    | write off size w => exact access_answers_or_inReset s _
    | wait => exact access_answers_or_inReset s _

/-- A step from the invariant answers, or it is a bus access in hardware reset. -/
theorem Safety.Inv.step_answers_or_inReset (inv : Inv s) :
    (∃ t, step s = .next t) ∨ (s.rstN = false ∧ step s = .refused .accessInReset) := by
  obtain ⟨ts, -, h⟩ | ⟨ts, -, h⟩ | ⟨-, -, h⟩ | ⟨-, -, h⟩ := step_eq s <;> rw [h]
  · exact .inl (engineTurn_answers inv.inflight_checked)
  · exact hostTurn_answers_or_inReset { s with turns := ts }
  · exact .inl (engineTurn_answers inv.inflight_checked)
  · exact hostTurn_answers_or_inReset s

/-- Settles O53: a step that does not answer is refused, and only in hardware reset. -/
theorem stepNeverFaults : Obligations.StepNeverFaults := by
  unfold Obligations.StepNeverFaults
  intro s inv
  obtain ⟨t, ht⟩ | ⟨low, refused⟩ := inv.step_answers_or_inReset
  · rw [ht]
    exact ⟨nofun, fun _ => ⟨t, rfl⟩⟩
  · rw [refused]
    exact ⟨nofun, fun hrst => by simp [low] at hrst⟩

end Sys2Proof.Machine
end

-- Reset, hardware-reset hazards and the end of a run (70_reset_and_hazards.md).
section
/-! SUPPORT. What a reset of either kind leaves, what an access in hardware reset gets, and `workLeft`:
the number that every step of an unfinished run lowers. -/

namespace Sys2Proof.Machine

open Safety

variable {s r t : State} {a : HostAction} {rest : List HostAction}

/-! ## The reset and its clear (R290, R292, R294, R296) -/

/-- The pin returning to 1 is a hardware reset (R290). -/
theorem step_pinReset (m : HostMoves s (.resetPin true) r) (low : s.rstN = false) :
    step s = .next { r.resetCore with rstN := true } := by
  rw [step_of_hostMoves m, hostAct, driveResetPin, if_pos (by simp [m.rstN_eq, low])]

/-- Settles O20: a reset of either kind is R292's own state, but for the answer and the inputs still
to come. -/
theorem eitherResetErasesEverything : Obligations.EitherResetErasesEverything := by
  unfold Obligations.EitherResetErasesEverything
  intro s r hreset
  have next : ∃ answer, step s = .next { r.resetCore with rstN := true, response := answer } ∧
      (s.rstN = true → answer = some .writeDone) := by
    obtain ⟨w, m, srst, high⟩ | ⟨m, low⟩ := hreset
    · refine ⟨_, ?_, fun _ => rfl⟩
      rw [step_softReset m srst, if_pos high, ← m.rstN_eq.trans high]
      rfl
    · exact ⟨_, step_pinReset m low, fun high => by simp [low] at high⟩
  obtain ⟨answer, hstep, hanswer⟩ := next
  have zero : ∀ q k, (State.reset.poly q).coeff k = 0 := fun q k => by
    rw [State.reset_poly, Poly.coeff_zero]
  exact ⟨_, hstep, fun q k _ => zero q k, fun _ => rfl, rfl, rfl, rfl, rfl, rfl, rfl, rfl, rfl, rfl,
    rfl, rfl, rfl, rfl, hanswer⟩

/-- Settles O11: the engine's completion of CLEAR, which writes INFLIGHT alone. -/
theorem clearOnlyEmptiesInflight : Obligations.ClearOnlyEmptiesInflight := by
  unfold Obligations.ClearOnlyEmptiesInflight
  exact fun s r m clear => ⟨_, (completionNeverFails s r m).2 clear, rfl, rfl, rfl, rfl⟩

/-- Every host action but a level of the pin is a bus access, refused while the pin is at 0 (log 6). -/
theorem step_access_inReset (m : HostMoves s a r) (low : s.rstN = false)
    (access : ∀ level, a ≠ .resetPin level) : step s = .refused .accessInReset := by
  have refused : ¬r.rstN = true := by simp [m.rstN_eq, low]
  rw [step_of_hostMoves m]
  cases a with
  | resetPin level => exact absurd rfl (access level)
  | read off size => exact if_neg refused
  | write off size w => exact if_neg refused
  | wait => exact if_neg refused

/-- Settles O21, for the three forms of a bus access. -/
theorem accessInResetIsRefused : Obligations.AccessInResetIsRefused := by
  unfold Obligations.AccessInResetIsRefused
  exact fun s r low => ⟨fun _ _ m => step_access_inReset m low nofun,
    fun _ _ _ m => step_access_inReset m low nofun, fun m => step_access_inReset m low nofun⟩

/-! ## What a turn leaves of the inputs still to come -/

/-- The pin and the inputs still to come are as they were. -/
structure KeepsInputs (s t : State) : Prop where
  rstN : t.rstN = s.rstN
  host : t.host = s.host
  turns : t.turns = s.turns

theorem keepsInputs_busRead (off : Offset) (size : Size) (s : State) :
    KeepsInputs s (busRead off size s) := by
  obtain ⟨-, h⟩ | ⟨target, -, h⟩ := busRead_cases off size s <;> rw [h] <;> exact ⟨rfl, rfl, rfl⟩

theorem keepsInputs_writeCtrlReg (c : CtrlReg) (w : Word) (s : State) :
    KeepsInputs s (s.writeCtrlReg c w) := by
  cases c with
  | id | cfg | errcmd | status => exact ⟨rfl, rfl, rfl⟩
  | cmd =>
    rw [State.writeCtrlReg]
    obtain ⟨h, -⟩ | ⟨h, -⟩ | ⟨h, -⟩ | ⟨h, -⟩ := submit_cases s w <;> rw [h] <;> exact ⟨rfl, rfl, rfl⟩
  | ctrl =>
    rw [State.writeCtrlReg]
    cases hw : w.getLsbD 31 with
    | false => rw [State.writeCtrl_of_enables hw]; exact ⟨rfl, rfl, rfl⟩
    | true => rw [State.writeCtrl_of_srst hw]; exact ⟨rfl, rfl, rfl⟩

/-- A write changes no input, also when it is a soft reset. -/
theorem keepsInputs_busWrite (off : Offset) (size : Size) (w : Word) (s : State) :
    KeepsInputs s (busWrite off size w s) := by
  obtain ⟨-, h⟩ | ⟨target, -, h⟩ := busWrite_cases off size w s <;> rw [h]
  · exact ⟨rfl, rfl, rfl⟩
  · cases target with
    | ctrl c =>
      obtain ⟨pin, host, turns⟩ := keepsInputs_writeCtrlReg c w s
      exact ⟨pin, host, turns⟩
    | bmem b => exact ⟨rfl, rfl, rfl⟩
    | poly q k => exact ⟨rfl, rfl, rfl⟩

/-- A level 1 of the pin while it is at 1 does nothing (log 5). -/
theorem keepsInputs_driveResetPin (high : s.rstN = true) : KeepsInputs s (driveResetPin true s) := by
  obtain ⟨-, low, -⟩ | h := driveResetPin_cases true s
  · simp [high] at low
  · rw [h]
    exact ⟨high.symm, rfl, rfl⟩

theorem keepsInputs_engineTurn (h : engineTurn s = .next t) : KeepsInputs s t := by
  obtain ⟨-, rfl⟩ | ⟨-, rfl⟩ | ⟨w, i, -, -, hexec⟩ := engineTurn_eq_next h
  · exact ⟨rfl, rfl, rfl⟩
  · exact ⟨rfl, rfl, rfl⟩
  · have frame := completes_of_exec hexec
    exact ⟨frame.rstN, frame.host, frame.turns⟩

/-- After the engine's turn BUSY = 0 (60_exceptions.md R254, R296). -/
theorem not_busy_after_engineTurn (h : engineTurn s = .next t) : t.busy = false := by
  rw [State.busy_eq_false_iff]
  obtain ⟨empty, rfl⟩ | ⟨-, rfl⟩ | ⟨w, i, -, -, hexec⟩ := engineTurn_eq_next h
  · exact empty
  · rfl
  · exact (completes_of_exec hexec).inflight

/-- An action of a host that keeps the pin at 1 is done with, unless it is a WAIT that reads BUSY = 1. -/
theorem hostAct_waits_or_acts (high : s.rstN = true) (pin : a ≠ .resetPin false)
    (h : hostAct a rest s = .next t) :
    (a = .wait ∧ s.busy = true ∧ t.busy = true ∧ KeepsInputs { s with host := a :: rest } t) ∨
      KeepsInputs { s with host := rest } t := by
  obtain ⟨level, rfl, rfl⟩ | ⟨-, off, size, rfl, rfl⟩ | ⟨-, off, size, w, rfl, rfl⟩ | ⟨-, rfl, rfl⟩ :=
    hostAct_eq_next h
  · obtain rfl : level = true := by simpa using pin
    exact .inr (keepsInputs_driveResetPin high)
  · exact .inr (keepsInputs_busRead ..)
  · exact .inr (keepsInputs_busWrite ..)
  · cases hbusy : s.busy with
    | false => exact .inr (keepsInputs_busRead ..)
    | true => exact .inl ⟨rfl, rfl, (keepsLatch_busRead ..).busy.trans hbusy, keepsInputs_busRead ..⟩

/-- A turn of a host that keeps the pin at 1 takes its next action off, or there is none, or it is a
WAIT that reads BUSY = 1. -/
theorem hostTurn_waits_or_acts (out : outOfReset s) (h : hostTurn s = .next t) :
    ((s.host = [] ∨ s.busy = true) ∧ t.busy = s.busy ∧ KeepsInputs s t) ∨
      ∃ a rest, s.host = a :: rest ∧ KeepsInputs { s with host := rest } t := by
  obtain ⟨high, pin⟩ := out
  obtain ⟨exhausted, idle⟩ | ⟨a, rest, next, act⟩ := hostTurn_cases s
  · obtain rfl : s = t := Host.Outcome.next.inj (idle.symm.trans h)
    exact .inl ⟨.inl exhausted, rfl, rfl, rfl, rfl⟩
  · obtain ⟨-, busy, still, k⟩ | k :=
      hostAct_waits_or_acts high (pin a (by simp [next])) (act.symm.trans h)
    · exact .inl ⟨.inr busy, still.trans busy.symm, k.rstN, k.host.trans next.symm, k.turns⟩
    · exact .inr ⟨a, rest, next, k⟩

/-! ## A run ends (R306, R308; logs 1 and 2) -/

theorem Safety.outOfReset.of_keepsInputs (out : outOfReset s) (k : KeepsInputs s t) :
    outOfReset t := by
  obtain ⟨high, pin⟩ := out
  exact ⟨k.rstN.trans high, by rwa [k.host]⟩

/-- A host turn keeps the pin at 1 for the rest of the run. -/
theorem Safety.outOfReset.of_hostTurn (out : outOfReset s) (h : hostTurn s = .next t) :
    outOfReset t := by
  obtain ⟨-, -, k⟩ | ⟨a, rest, next, k⟩ := hostTurn_waits_or_acts out h
  · exact out.of_keepsInputs k
  · obtain ⟨high, pin⟩ := out
    have out_rest : outOfReset { s with host := rest } :=
      ⟨high, fun b hb => pin b (by simp [next, hb])⟩
    exact out_rest.of_keepsInputs k

theorem Safety.outOfReset.of_step (out : outOfReset s) (h : step s = .next t) : outOfReset t := by
  have out_turns (ts : List Agent) : outOfReset { s with turns := ts } := out
  obtain ⟨ts, -, eq⟩ | ⟨ts, -, eq⟩ | ⟨-, -, eq⟩ | ⟨-, -, eq⟩ := step_eq s <;> rw [eq] at h
  · exact (out_turns ts).of_keepsInputs (keepsInputs_engineTurn h)
  · exact (out_turns ts).of_hostTurn h
  · exact out.of_keepsInputs (keepsInputs_engineTurn h)
  · exact out.of_hostTurn h

/-- A bound on the steps a run can still take: a turn drawn is one, an action is its own step and the
completion it may start, and what is in flight is one completion. -/
def State.workLeft (s : State) : Nat := s.turns.length + 2 * s.host.length + s.busy.toNat

/-- A turn drawn is one step of the work left. -/
theorem workLeft_of_turn {agent : Agent} {ts : List Agent} (h : s.turns = agent :: ts) :
    s.workLeft = State.workLeft { s with turns := ts } + 1 := by
  have busy : State.busy { s with turns := ts } = s.busy := State.busy_congr rfl
  simp only [State.workLeft, busy, h, List.length_cons]
  omega

/-- The engine's turn takes the completion off the work left when there is one. -/
theorem workLeft_engineTurn (h : engineTurn s = .next t) : t.workLeft + s.busy.toNat = s.workLeft := by
  have k := keepsInputs_engineTurn h
  simp [State.workLeft, k.turns, k.host, not_busy_after_engineTurn h]

/-- An action done with takes two off the work left, and starts one completion at most. -/
theorem workLeft_lt_of_acts (next : s.host = a :: rest) (k : KeepsInputs { s with host := rest } t) :
    t.workLeft < s.workLeft := by
  have one := t.busy.toNat_le
  simp only [State.workLeft, k.turns, k.host, next, List.length_cons]
  omega

/-- A host turn never adds work, since the completion it may start replaces an action. -/
theorem workLeft_hostTurn_le (out : outOfReset s) (h : hostTurn s = .next t) :
    t.workLeft ≤ s.workLeft := by
  obtain ⟨-, busy, k⟩ | ⟨a, rest, next, k⟩ := hostTurn_waits_or_acts out h
  · rw [State.workLeft, k.turns, k.host, busy, State.workLeft]
  · exact (workLeft_lt_of_acts next k).le

/-- Every step of an unfinished run lowers the work left: by its turn, or else by the completion or
the action that comes next. -/
theorem workLeft_step_lt (out : outOfReset s) (unfinished : ¬finished s) (h : step s = .next t) :
    t.workLeft < s.workLeft := by
  obtain ⟨ts, turn, eq⟩ | ⟨ts, turn, eq⟩ | ⟨-, busy, eq⟩ | ⟨-, idle, eq⟩ := step_eq s <;>
    rw [eq] at h
  · rw [workLeft_of_turn turn]
    exact Nat.lt_succ_of_le (Nat.le.intro (workLeft_engineTurn h))
  · have out_ts : outOfReset { s with turns := ts } := out
    rw [workLeft_of_turn turn]
    exact Nat.lt_succ_of_le (workLeft_hostTurn_le out_ts h)
  · rw [← workLeft_engineTurn h, busy]
    exact Nat.lt_succ_self _
  · obtain ⟨exhausted | busy, -⟩ | ⟨a, rest, next, k⟩ := hostTurn_waits_or_acts out h
    · exact absurd ⟨exhausted, idle⟩ unfinished
    · simp [idle] at busy
    · exact workLeft_lt_of_acts next k

/-- A run that begins with a step goes on from the state after it. -/
theorem run_succ_of_step {M : Host.Core} {u v : M.State} (h : M.step u = .next v) (k : Nat) :
    M.run (k + 1) u = M.run k v := by
  rw [Host.Core.run, h]

/-- A run ends within the work left: it has ended, or a step lowers the work left. -/
theorem run_finishes_within_workLeft (s : State) (inv : Inv s) (out : outOfReset s) :
    ∃ k t, k ≤ s.workLeft ∧ Sys2Proof.core.run k s = .next t ∧ finished t := by
  by_cases ended : finished s
  · exact ⟨0, s, Nat.zero_le _, rfl, ended⟩
  · obtain ⟨u, hu⟩ := (stepNeverFaults s inv).2 out.1
    have less : u.workLeft < s.workLeft := workLeft_step_lt out ended hu
    obtain ⟨k, t, within, run, end_t⟩ :=
      run_finishes_within_workLeft u (stepKeepsTheInvariant s u inv hu) (out.of_step hu)
    exact ⟨k + 1, t, Nat.succ_le_of_lt (within.trans_lt less),
      (run_succ_of_step (M := Sys2Proof.core) hu k).trans run, end_t⟩
termination_by s.workLeft

/-- Settles O54: at most one completion is in flight, so the work left is within the bound. -/
theorem everyHostProgramFinishes : Obligations.EveryHostProgramFinishes := by
  unfold Obligations.EveryHostProgramFinishes
  intro s inv out
  obtain ⟨k, t, within, run, ended⟩ := run_finishes_within_workLeft s inv out
  exact ⟨k, t, within.trans (Nat.add_le_add_left s.busy.toNat_le _), run, ended⟩

end Sys2Proof.Machine
end
